-- ==== Sys2Proof/Word.lean ====
section
/-! DEFINITION. The word types of the machine: the widths of spec/00_scope.md R10 and of the fields of
spec/30_encoding.md R72. -/

namespace Sys2Proof

/-- An 8-bit byte: a V register, a timer, a byte of memory, the immediate `NN`. -/
abbrev Byte := BitVec 8

/-- A 16-bit word: an opcode, PC, I, a stack slot. -/
abbrev Word := BitVec 16

/-- A 4-bit group of an opcode (R18): `H`, `X`, `Y` or `N`. -/
abbrev Nibble := BitVec 4

/-- The 12-bit address operand `NNN`. -/
abbrev Addr12 := BitVec 12

/-- A 4-bit key code, the index of `KEY` (R35). -/
abbrev KeyCode := BitVec 4

end Sys2Proof
end

