-- ==== Sys2Proof/Decode.lean ====
section
/-! DEFINITION. The fixed-field decoder of spec/30_encoding.md: the slices of R72, the dispatch of R75 over the opcode
map of R76 with the priority of R77, and the named rejection of the unassigned words of R78. After it the encoder,
written from the same map. Bit patterns not in the source are the spec's general knowledge (log 1). -/

namespace Sys2Proof

/-- Why a word is no row of the opcode map: the three lists of R78. Each executes as a no-op, so none is an error. -/
inductive Unassigned where
  /-- `8XYN` with N in 8, 9, A, B, C, D, F -/
  | aluSelector
  /-- `EXNN` with NN not in 9E, A1 -/
  | keySelector
  /-- `FXNN` with NN not in 07, 0A, 15, 18, 1E, 29, 33, 55, 65 -/
  | miscSelector
  deriving DecidableEq, Repr

/-- `H`, `op[15:12]`, the primary selector (R72). -/
def fieldH (op : Word) : Nibble := op.extractLsb' 12 4
/-- `X`, `op[11:8]` (R72). -/
def fieldX (op : Word) : Nibble := op.extractLsb' 8 4
/-- `Y`, `op[7:4]` (R72). -/
def fieldY (op : Word) : Nibble := op.extractLsb' 4 4
/-- `N`, `op[3:0]` (R72). -/
def fieldN (op : Word) : Nibble := op.extractLsb' 0 4
/-- `NN`, `op[7:0]` (R72). -/
def fieldNN (op : Word) : Byte := op.extractLsb' 0 8
/-- `NNN`, `op[11:0]` (R72). -/
def fieldNNN (op : Word) : Addr12 := op.extractLsb' 0 12

/-- Group `0`: the whole low 12 bits select (R75); `00E0` and `00EE` before `0NNN` (R77). -/
def decodeGroup0 (nnn : Addr12) : Instr :=
  if nnn = 0x0E0 then .cls else if nnn = 0x0EE then .ret else .sys nnn

/-- Group `8`: the low nibble N selects (R75, R76). -/
def decodeGroup8 (x y n : Nibble) : Except Unassigned Instr :=
  if n = 0x0 then .ok (.ldReg x y)
  else if n = 0x1 then .ok (.orReg x y)
  else if n = 0x2 then .ok (.andReg x y)
  else if n = 0x3 then .ok (.xorReg x y)
  else if n = 0x4 then .ok (.addReg x y)
  else if n = 0x5 then .ok (.subReg x y)
  else if n = 0x6 then .ok (.shrReg x y)
  else if n = 0x7 then .ok (.subnReg x y)
  else if n = 0xE then .ok (.shlReg x y)
  else .error .aluSelector

/-- Group `E`: the low byte NN selects (R75, R76). -/
def decodeGroupE (x : Nibble) (nn : Byte) : Except Unassigned Instr :=
  if nn = 0x9E then .ok (.skp x)
  else if nn = 0xA1 then .ok (.sknp x)
  else .error .keySelector

/-- Group `F`: the low byte NN selects (R75, R76). -/
def decodeGroupF (x : Nibble) (nn : Byte) : Except Unassigned Instr :=
  if nn = 0x07 then .ok (.ldVxDt x)
  else if nn = 0x0A then .ok (.ldVxK x)
  else if nn = 0x15 then .ok (.ldDtVx x)
  else if nn = 0x18 then .ok (.ldStVx x)
  else if nn = 0x1E then .ok (.addI x)
  else if nn = 0x29 then .ok (.ldF x)
  else if nn = 0x33 then .ok (.ldB x)
  else if nn = 0x55 then .ok (.storeRegs x)
  else if nn = 0x65 then .ok (.loadRegs x)
  else .error .miscSelector

/-- The decoder: the instruction an opcode stands for, or the list of R78 it belongs to. Total (R77); the variant does
not change it (R80). -/
def decode (op : Word) : Except Unassigned Instr :=
  if fieldH op = 0x0 then .ok (decodeGroup0 (fieldNNN op))
  else if fieldH op = 0x1 then .ok (.jp (fieldNNN op))
  else if fieldH op = 0x2 then .ok (.call (fieldNNN op))
  else if fieldH op = 0x3 then .ok (.seImm (fieldX op) (fieldNN op))
  else if fieldH op = 0x4 then .ok (.sneImm (fieldX op) (fieldNN op))
  else if fieldH op = 0x5 then .ok (.seReg (fieldX op) (fieldY op) (fieldN op))
  else if fieldH op = 0x6 then .ok (.ldImm (fieldX op) (fieldNN op))
  else if fieldH op = 0x7 then .ok (.addImm (fieldX op) (fieldNN op))
  else if fieldH op = 0x8 then decodeGroup8 (fieldX op) (fieldY op) (fieldN op)
  else if fieldH op = 0x9 then .ok (.sneReg (fieldX op) (fieldY op) (fieldN op))
  else if fieldH op = 0xA then .ok (.ldI (fieldNNN op))
  else if fieldH op = 0xB then .ok (.jpV0 (fieldNNN op))
  else if fieldH op = 0xC then .ok (.rnd (fieldX op) (fieldNN op))
  else if fieldH op = 0xD then .ok (.drw (fieldX op) (fieldY op) (fieldN op))
  else if fieldH op = 0xE then decodeGroupE (fieldX op) (fieldNN op)
  else decodeGroupF (fieldX op) (fieldNN op)

/-- The opcode of two fetched bytes, the first one the more significant (R54, R13). -/
def opcodeOf (hi lo : Byte) : Word := hi ++ lo

/-- The decoder on the bytes as they lie in memory, the first at the lower address. -/
def decodeBytes (hi lo : Byte) : Except Unassigned Instr := decode (opcodeOf hi lo)

/-- The two bytes, as memory holds them, of the opcode whose low `nbits` bits are those of `w` and whose other bits
are 0: the opcode table numbers an opcode's bits as R13 does. -/
def tableBytes (nbits w : Nat) : Byte × Byte :=
  let op := BitVec.ofNat 16 (w % 2 ^ nbits)
  (op.extractLsb' 8 8, op.extractLsb' 0 8)

/-- What the decoder reads from the table word `w` of `nbits` bits; none where it rejects the word. -/
def decodeTableWord (nbits w : Nat) : Option Instr :=
  match decodeBytes (tableBytes nbits w).1 (tableBytes nbits w).2 with
  | .ok i => some i
  | .error _ => none

/-- The opcode of an instruction, by the pattern of its row of R76. -/
def encode : Instr → Word
  | .cls => 0x00E0
  | .ret => 0x00EE
  | .sys nnn => 0x0#4 ++ nnn
  | .jp nnn => 0x1#4 ++ nnn
  | .call nnn => 0x2#4 ++ nnn
  | .seImm x nn => 0x3#4 ++ x ++ nn
  | .sneImm x nn => 0x4#4 ++ x ++ nn
  | .seReg x y n => 0x5#4 ++ x ++ y ++ n
  | .ldImm x nn => 0x6#4 ++ x ++ nn
  | .addImm x nn => 0x7#4 ++ x ++ nn
  | .ldReg x y => 0x8#4 ++ x ++ y ++ 0x0#4
  | .orReg x y => 0x8#4 ++ x ++ y ++ 0x1#4
  | .andReg x y => 0x8#4 ++ x ++ y ++ 0x2#4
  | .xorReg x y => 0x8#4 ++ x ++ y ++ 0x3#4
  | .addReg x y => 0x8#4 ++ x ++ y ++ 0x4#4
  | .subReg x y => 0x8#4 ++ x ++ y ++ 0x5#4
  | .shrReg x y => 0x8#4 ++ x ++ y ++ 0x6#4
  | .subnReg x y => 0x8#4 ++ x ++ y ++ 0x7#4
  | .shlReg x y => 0x8#4 ++ x ++ y ++ 0xE#4
  | .sneReg x y n => 0x9#4 ++ x ++ y ++ n
  | .ldI nnn => 0xA#4 ++ nnn
  | .jpV0 nnn => 0xB#4 ++ nnn
  | .rnd x nn => 0xC#4 ++ x ++ nn
  | .drw x y n => 0xD#4 ++ x ++ y ++ n
  | .skp x => 0xE#4 ++ x ++ 0x9E#8
  | .sknp x => 0xE#4 ++ x ++ 0xA1#8
  | .ldVxDt x => 0xF#4 ++ x ++ 0x07#8
  | .ldVxK x => 0xF#4 ++ x ++ 0x0A#8
  | .ldDtVx x => 0xF#4 ++ x ++ 0x15#8
  | .ldStVx x => 0xF#4 ++ x ++ 0x18#8
  | .addI x => 0xF#4 ++ x ++ 0x1E#8
  | .ldF x => 0xF#4 ++ x ++ 0x29#8
  | .ldB x => 0xF#4 ++ x ++ 0x33#8
  | .storeRegs x => 0xF#4 ++ x ++ 0x55#8
  | .loadRegs x => 0xF#4 ++ x ++ 0x65#8

end Sys2Proof
end

