-- ==== Sys2Proof/Config.lean ====
section
/-! DEFINITION. What a session or an implementation fixes (spec/00_scope.md R11): the types of the parameters, and the
FREE VALUES, which are constants with no body, so that no proof can see what they are. The parameters the spec gives a
value are in Sys2Proof/Machine/Params.lean. -/

namespace Sys2Proof

/-- The behavioural variant of a session (R2, R37). -/
inductive Variant where
  | baseline
  | extended
  | extendedStream
  deriving DecidableEq, Repr

/-- The three divergence points of a variant (R12). -/
structure Quirks where
  /-- `8XY1`, `8XY2`, `8XY3` force `V[0xF]` to 0 -/
  logicVF : Bool
  /-- `8XY6`, `8XYE` shift `V[Y]` (true) or `V[X]` (false) -/
  shiftVY : Bool
  /-- `FX55`, `FX65` advance I by X + 1 -/
  incI : Bool
  deriving DecidableEq, Repr, Inhabited

/-- What a CALL on a full stack does: `STACK_OVERFLOW_POLICY` (R11, R29). -/
inductive OverflowPolicy where
  /-- the whole call is a no-op -/
  | reject
  /-- the oldest return address is discarded -/
  | dropOldest
  deriving DecidableEq, Repr

/-- The display bit-plane: 32 rows of 64 one-bit pixels, `DISP[y][x]` (R34). -/
abbrev Display := Vector (Vector Bool 64) 32

/-- Every pixel off. -/
def Display.off : Display := Vector.replicate 32 (Vector.replicate 64 false)

/-- The values of the elements that `INIT_REGS_ZERO` governs (R43): V, DT, ST and DISP after session start. -/
structure PowerOn where
  v    : Vector Byte 16
  dt   : Byte
  st   : Byte
  disp : Display
  deriving DecidableEq, Repr, Inhabited

/-- All zero, every pixel off. -/
def PowerOn.zero : PowerOn :=
  { v := Vector.replicate 16 0, dt := 0, st := 0, disp := Display.off }

/-- The parameters of R11 that a session is created with, beside its variant and its image. -/
structure Parameters where
  /-- `FONT`: the 80 bytes copied to 0x000 at session start (R39) -/
  font : Vector Byte 80
  /-- `STACK_OVERFLOW_POLICY` (R29) -/
  stackOverflowPolicy : OverflowPolicy
  /-- `INIT_REGS_ZERO` (R43) -/
  initRegsZero : Bool
  deriving DecidableEq, Repr

/-- FREE VALUE (log 4, safe): `EXTSTREAM_QUIRKS`, which the spec leaves OPEN (R11, R12, D2). -/
opaque Config.extStreamQuirks : Quirks

/-- FREE VALUE (log 14, safe): the 8-bit draw of the `k`-th executed `CXNN` (R42, D12), under no law. -/
opaque Config.draw (k : Nat) : Byte

/-- FREE VALUE (log 13, safe): what V, DT, ST and DISP hold after session start when `INIT_REGS_ZERO` is false (R43, D11). -/
opaque Config.powerOn : PowerOn

end Sys2Proof
end

