-- ==== Sys2Proof/Machine/Params.lean ====
section
/-! DEFINITION. The values that spec/00_scope.md R11 gives the parameters a session is created with, and the quirk
predicates of R12. `load` takes the parameters as an argument; these are those of `State.reset`. -/

namespace Sys2Proof.Machine

/-- `QuirkLogicVF`, `QuirkShiftVY`, `QuirkLoadStoreIncI` of a variant (R12). ExtendedStream's are free (log 4). -/
def quirksOf : Variant → Quirks
  | .baseline => { logicVF := true, shiftVY := true, incI := true }
  | .extended => { logicVF := false, shiftVY := false, incI := false }
  | .extendedStream => Config.extStreamQuirks

/-- The value of `STACK_OVERFLOW_POLICY`: the spec's decision D3 (R29). UNVERIFIED, unsafe (log 5). -/
def stackOverflowPolicy : OverflowPolicy := .reject

/-- The value of `INIT_REGS_ZERO`: the spec's decision D11 (R43). UNVERIFIED, unsafe (log 13). -/
def initRegsZero : Bool := true

/-- V, DT, ST and DISP after session start under a value of `INIT_REGS_ZERO` (R43): zero, or free draws. -/
def powerOnValues (zero : Bool) : PowerOn := if zero then PowerOn.zero else Config.powerOn

/-- The variant of `State.reset`'s session. DESIGN CHOICE, unsafe (log 3): R43 leaves it to the session, and
`load` takes it as an argument. -/
def sessionVariant : Variant := .baseline

/-- The value of `FONT`: the 80 bytes of R39, glyph g at 5g .. 5g+4, top row first. PRESUMED by the spec, unsafe (log 2). -/
def font : List Byte :=
  [0xF0, 0x90, 0x90, 0x90, 0xF0,  0x20, 0x60, 0x20, 0x20, 0x70,
   0xF0, 0x10, 0xF0, 0x80, 0xF0,  0xF0, 0x10, 0xF0, 0x10, 0xF0] ++
  [0x90, 0x90, 0xF0, 0x10, 0x10,  0xF0, 0x80, 0xF0, 0x10, 0xF0,
   0xF0, 0x80, 0xF0, 0x90, 0xF0,  0xF0, 0x10, 0x20, 0x40, 0x40] ++
  [0xF0, 0x90, 0xF0, 0x90, 0xF0,  0xF0, 0x90, 0xF0, 0x10, 0xF0,
   0xF0, 0x90, 0xF0, 0x90, 0x90,  0xE0, 0x90, 0xE0, 0x90, 0xE0] ++
  [0xF0, 0x80, 0x80, 0x80, 0xF0,  0xE0, 0x90, 0x90, 0x90, 0xE0,
   0xF0, 0x80, 0xF0, 0x80, 0xF0,  0xF0, 0x80, 0xF0, 0x80, 0x80]

/-- The values R11 gives the parameters (log 29). -/
def specParameters : Parameters :=
  { font := ⟨font.toArray, rfl⟩, stackOverflowPolicy := stackOverflowPolicy, initRegsZero := initRegsZero }

/-- The byte an address holds in `State.reset` (R43, R220): the font of R39 below 0x050, zero elsewhere. -/
def initialByte (a : Nat) : Byte := font.getD a 0

end Sys2Proof.Machine
end

