-- ==== Sys2Proof/Machine/State.lean ====
section
/-! DEFINITION. The machine-state aggregate of spec/10_state.md R20, as plain data, and its value after session start
(R43), with the overflow policy of the session beside it (R11). Two fields are the model's own: `draws` and
`schedule`. -/

namespace Sys2Proof.Machine

/-- `MEM` (R38): the bytes that differ from the reset contents, addresses strictly rising. An address that is not
listed reads as `initialByte`. -/
abbrev Memory := List Host.Cell

/-- What the host does to the core between two Steps (R203): one timer tick (R200), or one key write (R206). -/
inductive HostAction where
  | tick
  | setKey (k : KeyCode) (down : Bool)
  deriving DecidableEq, Repr

/-- The Machine State (R20). -/
structure State where
  /-- `MEM`, 4096 bytes (R38) -/
  mem : Memory
  /-- `V[0]` .. `V[0xF]` (R22) -/
  v : Vector Byte 16
  /-- `I` (R27) -/
  i : Word
  /-- `PC` (R25) -/
  pc : Word
  /-- `STACK[0]` .. `STACK[11]` (R28) -/
  stack : Vector Word 12
  /-- `SP`, the number of saved return addresses, 0..12 (R28) -/
  sp : Fin 13
  /-- `DT` (R31) -/
  dt : Byte
  /-- `ST` (R32) -/
  st : Byte
  /-- `DISP` (R34) -/
  disp : Display
  /-- `KEY`, true while the key is down (R35) -/
  key : Vector Bool 16
  /-- `WAITKEY`, the key awaiting release (R36) -/
  waitKey : Option KeyCode
  /-- `VARIANT`, fixed for the session (R37) -/
  variant : Variant
  /-- `STACK_OVERFLOW_POLICY`, a parameter (R11) fixed for the session like the variant (log 29) -/
  overflow : OverflowPolicy
  /-- MODEL's own (log 14): how many draws `CXNN` has taken; the next one is `Config.draw draws` -/
  draws : Nat
  /-- MODEL's own (log 15): the host's actions before each coming Step, the next Step's first -/
  schedule : List (List HostAction)
  deriving DecidableEq, Repr

/-- Why the machine stops. No Step stops (R190): the only failure is `LoadError` (R191), which `load` raises. -/
inductive Fault where
  /-- `LoadError`: the image is longer than 4096 - 0x200 bytes (R221). Raised by `load` only; safe, as the spec says. -/
  | imageTooLarge
  /-- `LoadError`: the source of the image is unreadable (R221). Raised by `load` only; safe, as the spec says. -/
  | imageUnreadable
  deriving DecidableEq, Repr

/-- Why an instruction has no meaning. -/
inductive Refusal where
  /-- The instruction is not modelled yet. Raised by an arm of `exec` only; no arm raises it now; safe. -/
  | notModelled (mnemonic : String)
  deriving DecidableEq, Repr

/-- What a step or a meaning answers. -/
abbrev Result := Host.Outcome State Fault Refusal

/-- The state at session start (R43, R220) for a session's parameters and variant, before the font and the image are
copied in: its memory is that of `State.reset`. -/
def State.start (params : Parameters) (variant : Variant) : State :=
  let p := powerOnValues params.initRegsZero
  { mem := [], v := p.v, i := 0, pc := 0x200, stack := Vector.replicate 12 0, sp := 0, dt := p.dt, st := p.st,
    disp := p.disp, key := Vector.replicate 16 false, waitKey := none, variant := variant,
    overflow := params.stackOverflowPolicy, draws := 0, schedule := [] }

/-- The machine right after session start (R43), with the parameters' values of R11 and an empty image. The variant is
the model's choice (log 3). -/
def State.reset : State := State.start specParameters sessionVariant

end Sys2Proof.Machine
end

