-- ==== Sys2Proof/Machine/Memory.lean ====
section
/-! DEFINITION. The memory array (spec/20_memory.md): reads and writes of one byte, and its canonical form. -/

namespace Sys2Proof.Machine

/-- `Addr(a) = a mod 4096`, the address used for a computed address (R15, R51). -/
def addr (a : Nat) : Nat := a % 4096

/-- The byte at an address. -/
def Memory.read : Memory → Nat → Byte
  | [], a => initialByte a
  | c :: m, a => if a = c.1 then c.2 else Memory.read m a

/-- The memory without any entry for an address. -/
def Memory.erase (m : Memory) (a : Nat) : Memory := m.filter (fun c => c.1 != a)

/-- A cell put in its place by address. -/
def Memory.insert (c : Host.Cell) : Memory → Memory
  | [] => [c]
  | d :: m => if c.1 < d.1 then c :: d :: m else d :: Memory.insert c m

/-- The memory after one byte is written. Writing the reset contents removes the entry. -/
def Memory.write (m : Memory) (a : Nat) (b : Byte) : Memory :=
  if b = initialByte a then m.erase a else Memory.insert (a, b) (m.erase a)

/-- The canonical form: every entry in the address space and different from the reset contents, addresses strictly
rising. -/
def Memory.wf : Memory → Bool
  | [] => true
  | c :: m => decide (c.1 < 4096) && c.2 != initialByte c.1 && m.all (fun d => decide (c.1 < d.1)) && Memory.wf m

/-- Consecutive bytes written from an address on (the image copy of R220). -/
def Memory.writeAll (m : Memory) (a : Nat) : List Byte → Memory
  | [] => m
  | b :: bs => Memory.writeAll (m.write a b) (a + 1) bs

/-- `MemRead(a, 1)` (R15): each byte address is reduced on its own (R51, the spec's D5; log 7). -/
def State.readByte (s : State) (a : Nat) : Byte := s.mem.read (addr a)

/-- `MemWrite(a, 1, b)` (R15). No address is protected (R53), and none faults (R60). -/
def State.writeByte (s : State) (a : Nat) (b : Byte) : State := { s with mem := s.mem.write (addr a) b }

end Sys2Proof.Machine
end

