-- ==== Sys2Proof/Machine/Ops.lean ====
section
/-! DEFINITION. The named operations over registers, PC, stack and keypad, and instruction fetch. The hardware takes no
exception and returns from none (spec/60_exceptions.md R190, R195, R196), so there is no exception entry here. -/

namespace Sys2Proof.Machine

/-- `V[x]` (R15, R22). -/
def State.getV (s : State) (x : Nibble) : Byte := s.v[x.toNat]'x.isLt

/-- `V[x] <- b` (R15, R22). -/
def State.setV (s : State) (x : Nibble) (b : Byte) : State := { s with v := s.v.set x.toNat b x.isLt }

/-- `I <- a`, always taken mod 2^16 (R27). -/
def State.setI (s : State) (a : Word) : State := { s with i := a }

/-- `PC <- a`, always taken mod 2^16 (R25). -/
def State.setPc (s : State) (a : Word) : State := { s with pc := a }

/-- `KEY[k]` (R35). -/
def State.keyDown (s : State) (k : KeyCode) : Bool := s.key[k.toNat]'k.isLt

/-- The opcode at PC: two bytes, big-endian (R54, R70). -/
def fetch (s : State) : Word := opcodeOf (s.readByte s.pc.toNat) (s.readByte (s.pc.toNat + 1))

/-- The advance of PC that is part of the fetch (R26, R70). -/
def advancePc (s : State) : State := s.setPc (s.pc + 2)

/-- `skip`: PC past one more opcode (R15, R90). -/
def skip (s : State) : State := s.setPc (s.pc + 2)

/-- `if c: skip` (R90). -/
def skipIf (c : Bool) (s : State) : State := if c then skip s else s

/-- PC back to `PC_fetch`, from which the fetch had advanced it: no forward progress (R26, R173). -/
def rewindPc (s : State) : State := s.setPc (s.pc - 2)

/-- `for k in 0..10: STACK[k] <- STACK[k+1]` (R29). -/
def shiftStack (st : Vector Word 12) : Vector Word 12 :=
  (List.range 11).foldl (fun st k => st.setIfInBounds k ((st[k + 1]?).getD 0)) st

/-- `Push(a)` (R29), under the session's overflow policy: the state after it, or none where the call is `Rejected`. -/
def push (a : Word) (s : State) : Option State :=
  if h : s.sp.val < 12 then
    some { s with stack := s.stack.set s.sp.val a h, sp := ⟨s.sp.val + 1, Nat.succ_lt_succ h⟩ }
  else
    match s.overflow with
    | .reject => none
    | .dropOldest => some { s with stack := (shiftStack s.stack).setIfInBounds 11 a }

/-- `Pop()` (R30): the address and the state after it, or none on an empty stack. -/
def pop (s : State) : Option (Word × State) :=
  if h : 0 < s.sp.val then
    have hk : s.sp.val - 1 < 12 := by omega
    some (s.stack[s.sp.val - 1]'hk, { s with sp := ⟨s.sp.val - 1, Nat.lt_succ_of_lt hk⟩ })
  else none

/-- The lowest-numbered key that is down (R173, the spec's D8; log 11). -/
def lowestDown (s : State) : Option KeyCode :=
  ((List.range 16).map (BitVec.ofNat 4)).find? (fun k => s.keyDown k)

/-- `for k in 0..n-1: MemWrite(I + k, 1, V[k])` (R145), in increasing k (R140). -/
def storeFirst : Nat → State → State
  | 0, s => s
  | n + 1, s => (storeFirst n s).writeByte (s.i.toNat + n) (s.getV (BitVec.ofNat 4 n))

/-- `for k in 0..n-1: V[k] <- MemRead(I + k, 1)` (R146), in increasing k (R140). -/
def loadFirst : Nat → State → State
  | 0, s => s
  | n + 1, s => (loadFirst n s).setV (BitVec.ofNat 4 n) (s.readByte (s.i.toNat + n))

/-- What a word outside the opcode map does: the fetch alone, no other change (R78). -/
def execUnassigned (_why : Unassigned) (s : State) : Result := .next s

end Sys2Proof.Machine
end

