-- ==== Sys2Proof/Machine/Flags.lean ====
section
/-! DEFINITION. The flag computations (spec/42_alu.md R120, R130): each a function of the operands read before the
write, and the flag register `V[0xF]` written last. -/

namespace Sys2Proof.Machine

/-- `bool(c)` as a byte (R14). -/
def flagByte (c : Bool) : Byte := if c then 1 else 0

/-- The carry of an addition (R125). -/
def carryOut (a b : Byte) : Bool := decide (a.toNat + b.toNat > 255)

/-- The no-borrow of `a - b` (R126, R128). -/
def noBorrow (a b : Byte) : Bool := decide (b.toNat ≤ a.toNat)

/-- The bit a shift right by one moves out (R127). -/
def outRight (a : Byte) : Bool := a.getLsbD 0

/-- The bit a shift left by one moves out (R129). -/
def outLeft (a : Byte) : Bool := a.getLsbD 7

/-- `V[0xF] <- bool(c)` (R24). -/
def setFlag (c : Bool) (s : State) : State := s.setV 0xF (flagByte c)

/-- The write order of an ALU operation with a flag: the result to `V[x]`, then the flag to `V[0xF]` (R120). -/
def writeWithFlag (x : Nibble) (r : Byte) (c : Bool) (s : State) : State := setFlag c (s.setV x r)

/-- The write order of a logical operation: the result, then `V[0xF] <- 0` where `QuirkLogicVF` holds (R122). -/
def writeLogic (x : Nibble) (r : Byte) (s : State) : State :=
  if (quirksOf s.variant).logicVF then setFlag false (s.setV x r) else s.setV x r

end Sys2Proof.Machine
end

