-- ==== Sys2Proof/Machine/Operands.lean ====
section
/-! DEFINITION. The operand forms: registers by number, immediates, the address operand, the one data addressing mode
(spec/43_index_memory.md R140), the key a register names, the sprite's position, the shift's source. -/

namespace Sys2Proof.Machine

/-- The address operand in a 16-bit register: zero-extended (R73). -/
def target (nnn : Addr12) : Word := nnn.setWidth 16

/-- A register's value as an addend of a 16-bit register: zero-extended (R73, R142). -/
def widen (b : Byte) : Word := b.setWidth 16

/-- The computed address of data byte `k`, before `Addr` (R140). -/
def dataAddr (s : State) (k : Nat) : Nat := s.i.toNat + k

/-- The key that `V[x]` names: its low four bits (R170, the spec's D7; log 10). -/
def keyOperand (s : State) (x : Nibble) : KeyCode := (s.getV x).setWidth 4

/-- `V[x] mod 64`, the sprite's first column (R162). -/
def spriteColumn (s : State) (x : Nibble) : Nat := (s.getV x).toNat % 64

/-- `V[y] mod 32`, the sprite's first row (R162). -/
def spriteRow (s : State) (y : Nibble) : Nat := (s.getV y).toNat % 32

/-- The `n` sprite bytes from I on (R162). Bytes of clipped rows are read too, which nothing can observe (R57). -/
def spriteBytes (s : State) (n : Nibble) : List Byte :=
  (List.range n.toNat).map (fun r => s.readByte (dataAddr s r))

/-- The value a shift shifts: `V[y]` under `QuirkShiftVY`, else `V[x]` (R127, R129). -/
def shiftSource (s : State) (x y : Nibble) : Byte :=
  if (quirksOf s.variant).shiftVY then s.getV y else s.getV x

/-- I after a bulk move of the registers 0..x (R145, R146). -/
def advanceI (x : Nibble) (s : State) : State :=
  if (quirksOf s.variant).incI then s.setI (s.i + x.setWidth 16 + 1) else s

end Sys2Proof.Machine
end

