-- ==== Sys2Proof/Machine/Alu.lean ====
section
/-! DEFINITION. The register ALU family (spec/42_alu.md). Operands are captured before any write (R120). -/

namespace Sys2Proof.Machine

/-- `8XY0`: `V[X] <- V[Y]`, no flag (R121). -/
def execLdReg (x y : Nibble) (s : State) : Result := .next (s.setV x (s.getV y))

/-- `8XY1` (R122). -/
def execOrReg (x y : Nibble) (s : State) : Result := .next (writeLogic x (s.getV x ||| s.getV y) s)

/-- `8XY2` (R123). -/
def execAndReg (x y : Nibble) (s : State) : Result := .next (writeLogic x (s.getV x &&& s.getV y) s)

/-- `8XY3` (R124). -/
def execXorReg (x y : Nibble) (s : State) : Result := .next (writeLogic x (s.getV x ^^^ s.getV y) s)

/-- `8XY4` (R125). -/
def execAddReg (x y : Nibble) (s : State) : Result :=
  .next (writeWithFlag x (s.getV x + s.getV y) (carryOut (s.getV x) (s.getV y)) s)

/-- `8XY5`: `V[X] - V[Y]` (R126). -/
def execSubReg (x y : Nibble) (s : State) : Result :=
  .next (writeWithFlag x (s.getV x - s.getV y) (noBorrow (s.getV x) (s.getV y)) s)

/-- `8XY6`: logical shift right by one (R127). -/
def execShrReg (x y : Nibble) (s : State) : Result :=
  .next (writeWithFlag x (shiftSource s x y >>> 1) (outRight (shiftSource s x y)) s)

/-- `8XY7`: `V[Y] - V[X]` (R128; the operand order is PRESUMED by the spec, log 18). -/
def execSubnReg (x y : Nibble) (s : State) : Result :=
  .next (writeWithFlag x (s.getV y - s.getV x) (noBorrow (s.getV y) (s.getV x)) s)

/-- `8XYE`: shift left by one (R129). -/
def execShlReg (x y : Nibble) (s : State) : Result :=
  .next (writeWithFlag x (shiftSource s x y <<< 1) (outLeft (shiftSource s x y)) s)

end Sys2Proof.Machine
end

