-- ==== Sys2Proof/Machine/Screen.lean ====
section
/-! DEFINITION. The display bit-plane and the XOR blit (spec/44_display.md R160, R162): the starting position wraps,
pixels past the right and the bottom edge are clipped. -/

namespace Sys2Proof.Machine

/-- `DISP[y][x]`; off outside the grid. -/
def pixel (d : Display) (x y : Nat) : Bool :=
  if h : y < 32 ∧ x < 64 then (d[y]'h.1)[x]'h.2 else false

/-- `DISP[y][x] <- DISP[y][x] ^ 1`; nothing outside the grid. -/
def togglePixel (d : Display) (x y : Nat) : Display :=
  if h : y < 32 ∧ x < 64 then d.set y ((d[y]'h.1).set x (!(d[y]'h.1)[x]'h.2) h.2) h.1 else d

/-- A display being drawn on, and whether a set sprite bit has met a pixel that was on. -/
structure Canvas where
  disp : Display
  hit  : Bool
  deriving DecidableEq, Repr

/-- Column `c` of a sprite row at (x0, y): bit 7 - c, the most significant bit leftmost (R160). A clear bit, and a bit
past the right edge, does nothing. -/
def drawBit (row : Byte) (x0 y : Nat) (k : Canvas) (c : Nat) : Canvas :=
  if x0 + c < 64 ∧ row.getLsbD (7 - c) = true then
    { disp := togglePixel k.disp (x0 + c) y, hit := k.hit || pixel k.disp (x0 + c) y }
  else k

/-- The eight columns of a sprite row, from the left. -/
def drawRow (row : Byte) (x0 y : Nat) (k : Canvas) : Canvas := (List.range 8).foldl (drawBit row x0 y) k

/-- The rows of a sprite from (x0, y) down; rows past the bottom edge are clipped. -/
def drawRows (x0 : Nat) : Nat → List Byte → Canvas → Canvas
  | _, [], k => k
  | y, row :: rows, k => if y < 32 then drawRows x0 (y + 1) rows (drawRow row x0 y k) else k

end Sys2Proof.Machine
end

