-- ==== Sys2Proof/Machine/Draw.lean ====
section
/-! DEFINITION. The display instructions (spec/44_display.md). -/

namespace Sys2Proof.Machine

/-- `00E0`: every pixel off (R161). -/
def execCls (s : State) : Result := .next { s with disp := Display.off }

/-- The sprite of `DXYN` drawn on the display, with its collision (R162). -/
def drawSprite (x y n : Nibble) (s : State) : Canvas :=
  drawRows (spriteColumn s x) (spriteRow s y) (spriteBytes s n) { disp := s.disp, hit := false }

/-- `DXYN`: the XOR blit, `V[0xF]` ends as the collision flag (R162). The position is read before the flag register is
cleared, and N = 0 draws nothing (the spec's D9; log 12). -/
def execDrw (x y n : Nibble) (s : State) : Result :=
  .next (setFlag (drawSprite x y n s).hit { s with disp := (drawSprite x y n s).disp })

end Sys2Proof.Machine
end

