-- ==== Sys2Proof/Machine/Flow.lean ====
section
/-! DEFINITION. Control flow (spec/40_flow.md). On entry PC holds `PC_fetch + 2` (R16, R70). -/

namespace Sys2Proof.Machine

/-- `0NNN`: nothing (R91). -/
def execSys (_nnn : Addr12) (s : State) : Result := .next s

/-- `1NNN`: `PC <- NNN` (R92). -/
def execJp (nnn : Addr12) (s : State) : Result := .next (s.setPc (target nnn))

/-- `2NNN` (R93): the push, and the jump unless the session's overflow policy rejects the push (D3; log 5). -/
def execCall (nnn : Addr12) (s : State) : Result :=
  .next (match push s.pc s with
    | some t => t.setPc (target nnn)
    | none => s)

/-- `00EE` (R94). On an empty stack nothing happens: PC stays `PC_fetch + 2` (the spec's D4; log 6). -/
def execRet (s : State) : Result :=
  match pop s with
  | some (a, t) => .next (t.setPc a)
  | none => .next s

/-- `3XNN`: skip if `V[X] = NN` (R95). -/
def execSeImm (x : Nibble) (nn : Byte) (s : State) : Result := .next (skipIf (s.getV x == nn) s)

/-- `4XNN`: skip if `V[X] != NN` (R96). -/
def execSneImm (x : Nibble) (nn : Byte) (s : State) : Result := .next (skipIf (s.getV x != nn) s)

/-- `5XYN`: skip if `V[X] = V[Y]` (R97); the low nibble is ignored (R79, the spec's D10; log 17). -/
def execSeReg (x y _n : Nibble) (s : State) : Result := .next (skipIf (s.getV x == s.getV y) s)

/-- `9XYN`: skip if `V[X] != V[Y]` (R98); the low nibble is ignored (R79, the spec's D10; log 17). -/
def execSneReg (x y _n : Nibble) (s : State) : Result := .next (skipIf (s.getV x != s.getV y) s)

/-- `BNNN`: `PC <- V[0] + NNN` (R99). -/
def execJpV0 (nnn : Addr12) (s : State) : Result := .next (s.setPc (widen (s.getV 0) + target nnn))

end Sys2Proof.Machine
end

