-- ==== Sys2Proof/Machine/Immediate.lean ====
section
/-! DEFINITION. Immediate and random instructions (spec/41_immediate.md). They write `V[X]` and no flag (R110). -/

namespace Sys2Proof.Machine

/-- `6XNN`: `V[X] <- NN` (R111). -/
def execLdImm (x : Nibble) (nn : Byte) (s : State) : Result := .next (s.setV x nn)

/-- `7XNN`: `V[X] <- (V[X] + NN) mod 256`, no carry (R112). -/
def execAddImm (x : Nibble) (nn : Byte) (s : State) : Result := .next (s.setV x (s.getV x + nn))

/-- `Draw8()`: a fresh free value, and the state in which it is spent (R42; log 14). -/
def draw8 (s : State) : Byte × State := (Config.draw s.draws, { s with draws := s.draws + 1 })

/-- `CXNN`: `V[X] <- Draw8() & NN` (R113). -/
def execRnd (x : Nibble) (nn : Byte) (s : State) : Result := .next ((draw8 s).2.setV x ((draw8 s).1 &&& nn))

end Sys2Proof.Machine
end

