-- ==== Sys2Proof/Machine/Index.lean ====
section
/-! DEFINITION. Index register and memory instructions (spec/43_index_memory.md). None writes a flag. -/

namespace Sys2Proof.Machine

/-- `ANNN`: `I <- NNN` (R141). -/
def execLdI (nnn : Addr12) (s : State) : Result := .next (s.setI (target nnn))

/-- `FX1E`: `I <- (I + V[X]) mod 2^16`, no flag (R142). -/
def execAddI (x : Nibble) (s : State) : Result := .next (s.setI (s.i + widen (s.getV x)))

/-- `FX29`: `I <- V[X] * 5`, `V[X]` unmasked (R143). -/
def execLdF (x : Nibble) (s : State) : Result := .next (s.setI (widen (s.getV x) * 5))

/-- `FX33`: hundreds, tens and ones of `V[X]` at I, I + 1, I + 2 (R144). -/
def execLdB (x : Nibble) (s : State) : Result :=
  .next (((s.writeByte (dataAddr s 0) (s.getV x / 100)).writeByte (dataAddr s 1) (s.getV x / 10 % 10)).writeByte
    (dataAddr s 2) (s.getV x % 10))

/-- `FX55`: `V[0]` .. `V[X]` to memory from I on; I advanced under `QuirkLoadStoreIncI` (R145). -/
def execStoreRegs (x : Nibble) (s : State) : Result := .next (advanceI x (storeFirst (x.toNat + 1) s))

/-- `FX65`: `V[0]` .. `V[X]` from memory from I on; I advanced under `QuirkLoadStoreIncI` (R146). -/
def execLoadRegs (x : Nibble) (s : State) : Result := .next (advanceI x (loadFirst (x.toNat + 1) s))

end Sys2Proof.Machine
end

