-- ==== Sys2Proof/Machine/KeypadTimers.lean ====
section
/-! DEFINITION. Keypad and timer instructions (spec/45_keypad_timers.md). -/

namespace Sys2Proof.Machine

/-- `EX9E`: skip if the key is down (R171). -/
def execSkp (x : Nibble) (s : State) : Result := .next (skipIf (s.keyDown (keyOperand s x)) s)

/-- `EXA1`: skip if the key is up (R172). -/
def execSknp (x : Nibble) (s : State) : Result := .next (skipIf (!s.keyDown (keyOperand s x)) s)

/-- `FX0A`: wait for a key press and its release (R173, the spec's D8; log 11). While it waits, PC returns to the
instruction itself. -/
def execLdVxK (x : Nibble) (s : State) : Result :=
  match s.waitKey with
  | none =>
    match lowestDown s with
    | some k => .next (rewindPc { s with waitKey := some k })
    | none => .next (rewindPc s)
  | some k =>
    if s.keyDown k then .next (rewindPc s)
    else .next ({ s with waitKey := none }.setV x (k.setWidth 8))

/-- `FX07`: `V[X] <- DT` (R174). -/
def execLdVxDt (x : Nibble) (s : State) : Result := .next (s.setV x s.dt)

/-- `FX15`: `DT <- V[X]` (R175). -/
def execLdDtVx (x : Nibble) (s : State) : Result := .next { s with dt := s.getV x }

/-- `FX18`: `ST <- V[X]` (R176). -/
def execLdStVx (x : Nibble) (s : State) : Result := .next { s with st := s.getV x }

end Sys2Proof.Machine
end

