-- ==== Sys2Proof/Machine/HostInterface.lean ====
section
/-! DEFINITION. The block's interface to the host (spec/60_exceptions.md R203): Load, Tick, SetKey, ReadDisplay, Tone,
End, and the host's actions before a Step. -/

namespace Sys2Proof.Machine

/-- A timer after one tick: decremented, floored at 0 (R200). -/
def countDown (b : Byte) : Byte := if b = 0 then 0 else b - 1

/-- `Tick()` (R200). -/
def tick (s : State) : State := { s with dt := countDown s.dt, st := countDown s.st }

/-- `SetKey(k, down)` (R206). -/
def setKey (k : KeyCode) (down : Bool) (s : State) : State := { s with key := s.key.set k.toNat down k.isLt }

/-- `Tone()`: on while `ST > 0` (R33, R208; the spec's D19; log 20). -/
def tone (s : State) : Bool := decide (0 < s.st.toNat)

/-- `ReadDisplay()` (R205). -/
def readDisplay (s : State) : Display := s.disp

/-- `End()`: the state is discarded, and no session is left (R210). -/
def endSession (_s : State) : Option State := none

/-- The memory of a new session (R220): zero, the font copied to 0x000, the image copied verbatim to 0x200. The empty
list holds the font of R39, so copying that font lists nothing (log 23). -/
def startMemory (params : Parameters) (image : List Byte) : Memory :=
  Memory.writeAll (Memory.writeAll [] 0 params.font.toList) 0x200 image

/-- The state of a new session (R220). -/
def startSession (params : Parameters) (variant : Variant) (image : List Byte) : State :=
  { State.start params variant with mem := startMemory params image }

/-- `Load(variant, image)` (R220, R221), with the parameters of R11 (log 29); no image where its source is unreadable. -/
def load (params : Parameters) (variant : Variant) (image : Option (List Byte)) : Result :=
  match image with
  | none => .fault .imageUnreadable
  | some bytes =>
    if 4096 - 0x200 < bytes.length then .fault .imageTooLarge
    else .next (startSession params variant bytes)

/-- One action of the host. -/
def hostAct (s : State) : HostAction → State
  | .tick => tick s
  | .setKey k down => setKey k down s

/-- What the host does before the next Step: the first batch of the schedule, in order; nothing where the schedule is
empty (R193, R207; log 15). -/
def hostTurn (s : State) : State :=
  match s.schedule with
  | [] => s
  | acts :: rest => acts.foldl hostAct { s with schedule := rest }

/-- The actions after one frame's Steps: one tick, then the key writes (R207). -/
def frameActions (keys : List (KeyCode × Bool)) : List HostAction :=
  .tick :: keys.map (fun e => .setKey e.1 e.2)

/-- The reference schedule of R207 for `IPF = ipf` and the key writes of each frame. `carry` is what the host does
before the first Step; the last batch is what it does after the last frame. -/
def referenceSchedule (ipf : Nat) (carry : List HostAction) : List (List (KeyCode × Bool)) → List (List HostAction)
  | [] => [carry]
  | keys :: rest =>
    match ipf with
    | 0 => referenceSchedule 0 (carry ++ frameActions keys) rest
    | n + 1 => (carry :: List.replicate n []) ++ referenceSchedule (n + 1) (frameActions keys) rest

end Sys2Proof.Machine
end

