-- ==== Sys2Proof/Machine/Step.lean ====
section
/-! DEFINITION. One Step (spec/30_encoding.md R70, R71): what the host does before it, then the fetch with its advance
of PC, the decode and one transition. -/

namespace Sys2Proof.Machine

/-- The fetch, the decode and one transition (R71). -/
def runOpcode (s : State) : Host.Outcome State Fault Refusal :=
  match decode (fetch s) with
  | .ok i => exec i (advancePc s)
  | .error why => execUnassigned why (advancePc s)

/-- One step of the machine: the host's turn, then one Step of the core. -/
def step (s : State) : Host.Outcome State Fault Refusal := runOpcode (hostTurn s)

/-- `s` with the opcode table's word `w` of `nbits` bits stored at PC, where `step` fetches next: the host's actions
touch neither memory nor PC. -/
def State.withFetchWord (s : State) (nbits w : Nat) : State :=
  (s.writeByte s.pc.toNat (tableBytes nbits w).1).writeByte (s.pc.toNat + 1) (tableBytes nbits w).2

end Sys2Proof.Machine
end

