-- ==== Sys2Proof/Safety.lean ====
section
/-! DEFINITION. What counts as a safe run, and the words the claims use: the invariant, the frames, the writers of each
element of the state (spec/10_state.md R23 to R41), reachable states and the frame loop of the host. -/

namespace Sys2Proof.Machine

/-- The invariant: the memory list is in its canonical form. -/
abbrev State.Inv (s : State) : Prop := s.mem.wf = true

/-- A step or a meaning that goes on: what R190 and R230 say of every Step. -/
def Completes (r : Host.Outcome State Fault Refusal) : Prop := ∃ t, r = .next t

/-- Every byte of memory reads as before. -/
def SameBytes (s t : State) : Prop := ∀ a : Nat, t.readByte a = s.readByte a

/-- Every byte of memory reads as before, but at the addresses in `stored`. -/
def SameBytesOutside (stored : List Nat) (s t : State) : Prop :=
  ∀ a : Nat, addr a ∉ stored → t.readByte a = s.readByte a

/-- Nothing changes but PC. -/
def OnlyPc (s t : State) : Prop := t = { s with pc := t.pc } ∧ SameBytes s t

/-- Nothing changes but I. -/
def OnlyI (s t : State) : Prop := t = { s with i := t.i } ∧ SameBytes s t

/-- Nothing changes but the registers in `written`. -/
def OnlyV (written : List Nibble) (s t : State) : Prop :=
  t = { s with v := t.v } ∧ (∀ z, z ∉ written → t.getV z = s.getV z) ∧ SameBytes s t

/-- What a logical operation with result `r` leaves (R122): the result in `V[x]`, and then `V[0xF]` zero where the
quirk `q` holds. -/
def LogicResult (q : Bool) (x : Nibble) (r : Byte) (s t : State) : Prop :=
  (x ≠ 0xF → t.getV x = r) ∧
  t.getV 0xF = (if q then 0 else if x = 0xF then r else s.getV 0xF) ∧
  OnlyV [x, 0xF] s t

/-- A state some run of the block reaches (R230): a successful load, then Steps, ticks and key writes in any order,
with any host actions scheduled. -/
inductive Reachable : State → Prop where
  | load (params : Parameters) (variant : Variant) (image : Option (List Byte)) (s : State) :
      load params variant image = .next s → Reachable s
  | step (s t : State) : Reachable s → step s = .next t → Reachable t
  | act (s : State) (a : HostAction) : Reachable s → Reachable (hostAct s a)
  | schedule (s : State) (q : List (List HostAction)) : Reachable s → Reachable { s with schedule := q }

/-- The instructions that may write `V[z]` (R23), under a variant. -/
def mayWriteV (variant : Variant) : Instr → Nibble → Bool
  | .ldImm x _, z | .addImm x _, z | .rnd x _, z | .ldReg x _, z | .ldVxDt x, z | .ldVxK x, z => z == x
  | .orReg x _, z | .andReg x _, z | .xorReg x _, z => z == x || (z == 0xF && (quirksOf variant).logicVF)
  | .addReg x _, z | .subReg x _, z | .shrReg x _, z | .subnReg x _, z | .shlReg x _, z => z == x || z == 0xF
  | .loadRegs x, z => decide (z.toNat ≤ x.toNat)
  | .drw _ _ _, z => z == 0xF
  | _, _ => false

/-- The instructions that set PC themselves (R26): jumps, call, return, skips and the wait for a key. -/
def maySetPc : Instr → Bool
  | .jp _ | .call _ | .ret | .jpV0 _ | .seImm _ _ | .sneImm _ _ | .seReg _ _ _ | .sneReg _ _ _ | .skp _ | .sknp _
  | .ldVxK _ => true
  | _ => false

/-- The writers of I (R27). -/
def mayWriteI (variant : Variant) : Instr → Bool
  | .ldI _ | .addI _ | .ldF _ => true
  | .storeRegs _ | .loadRegs _ => (quirksOf variant).incI
  | _ => false

/-- The seven opcodes whose meaning depends on the variant (R80). -/
def dependsOnVariant : Instr → Bool
  | .orReg _ _ | .andReg _ _ | .xorReg _ _ | .shrReg _ _ | .shlReg _ _ | .storeRegs _ | .loadRegs _ => true
  | _ => false

/-- What an outcome is when its next state is seen through `f`. -/
def mapNext (f : State → State) : Host.Outcome State Fault Refusal → Host.Outcome State Fault Refusal
  | .next t => .next (f t)
  | .fault e => .fault e
  | .refused e => .refused e

/-- `n` steps of the machine: the host's run of `core`, in the model's own types. -/
def runSteps : Nat → State → Host.Outcome State Fault Refusal
  | 0, s => .next s
  | n + 1, s =>
    match step s with
    | .next t => runSteps n t
    | .fault e => .fault e
    | .refused e => .refused e

/-- `n` Steps of the core with no host action between them. -/
def runOpcodes : Nat → State → Host.Outcome State Fault Refusal
  | 0, s => .next s
  | n + 1, s =>
    match runOpcode s with
    | .next t => runOpcodes n t
    | .fault e => .fault e
    | .refused e => .refused e

/-- The host's frame loop of R207: for each frame, `ipf` Steps, one tick, the frame's key writes. -/
def frameLoop (ipf : Nat) : List (List (KeyCode × Bool)) → State → Host.Outcome State Fault Refusal
  | [], s => .next s
  | keys :: rest, s =>
    match runOpcodes ipf s with
    | .next t => frameLoop ipf rest ((frameActions keys).foldl hostAct t)
    | .fault e => .fault e
    | .refused e => .refused e

/-- Whether the sprite of `DXYN` has a set bit for the pixel at column `px` and row `py` (R162): row `r` of the sprite
is the byte at I + r, its most significant bit leftmost, from the wrapped starting position. -/
def spriteCovers (s : State) (x y n : Nibble) (px py : Nat) : Bool :=
  let x0 := (s.getV x).toNat % 64
  let y0 := (s.getV y).toNat % 32
  decide (x0 ≤ px) && decide (px < x0 + 8) && decide (y0 ≤ py) && decide (py < y0 + n.toNat) &&
    (s.readByte (s.i.toNat + (py - y0))).getLsbD (7 - (px - x0))

/-- One row of the opcode map (R76): the words `op` with `op & mask = pattern`, and the instruction of such a word. -/
structure OpcodeRow where
  mask : Word
  pattern : Word
  instr : Word → Instr

/-- The opcode map of R76, in table order (R77). -/
def opcodeMap : List OpcodeRow :=
  [ ⟨0xFFFF, 0x00E0, fun _ => .cls⟩, ⟨0xFFFF, 0x00EE, fun _ => .ret⟩,
    ⟨0xF000, 0x0000, fun w => .sys (fieldNNN w)⟩, ⟨0xF000, 0x1000, fun w => .jp (fieldNNN w)⟩,
    ⟨0xF000, 0x2000, fun w => .call (fieldNNN w)⟩, ⟨0xF000, 0x3000, fun w => .seImm (fieldX w) (fieldNN w)⟩,
    ⟨0xF000, 0x4000, fun w => .sneImm (fieldX w) (fieldNN w)⟩,
    ⟨0xF000, 0x5000, fun w => .seReg (fieldX w) (fieldY w) (fieldN w)⟩,
    ⟨0xF000, 0x6000, fun w => .ldImm (fieldX w) (fieldNN w)⟩,
    ⟨0xF000, 0x7000, fun w => .addImm (fieldX w) (fieldNN w)⟩ ] ++
  [ ⟨0xF00F, 0x8000, fun w => .ldReg (fieldX w) (fieldY w)⟩, ⟨0xF00F, 0x8001, fun w => .orReg (fieldX w) (fieldY w)⟩,
    ⟨0xF00F, 0x8002, fun w => .andReg (fieldX w) (fieldY w)⟩,
    ⟨0xF00F, 0x8003, fun w => .xorReg (fieldX w) (fieldY w)⟩,
    ⟨0xF00F, 0x8004, fun w => .addReg (fieldX w) (fieldY w)⟩,
    ⟨0xF00F, 0x8005, fun w => .subReg (fieldX w) (fieldY w)⟩,
    ⟨0xF00F, 0x8006, fun w => .shrReg (fieldX w) (fieldY w)⟩,
    ⟨0xF00F, 0x8007, fun w => .subnReg (fieldX w) (fieldY w)⟩,
    ⟨0xF00F, 0x800E, fun w => .shlReg (fieldX w) (fieldY w)⟩,
    ⟨0xF000, 0x9000, fun w => .sneReg (fieldX w) (fieldY w) (fieldN w)⟩ ] ++
  [ ⟨0xF000, 0xA000, fun w => .ldI (fieldNNN w)⟩, ⟨0xF000, 0xB000, fun w => .jpV0 (fieldNNN w)⟩,
    ⟨0xF000, 0xC000, fun w => .rnd (fieldX w) (fieldNN w)⟩,
    ⟨0xF000, 0xD000, fun w => .drw (fieldX w) (fieldY w) (fieldN w)⟩,
    ⟨0xF0FF, 0xE09E, fun w => .skp (fieldX w)⟩, ⟨0xF0FF, 0xE0A1, fun w => .sknp (fieldX w)⟩,
    ⟨0xF0FF, 0xF007, fun w => .ldVxDt (fieldX w)⟩, ⟨0xF0FF, 0xF00A, fun w => .ldVxK (fieldX w)⟩,
    ⟨0xF0FF, 0xF015, fun w => .ldDtVx (fieldX w)⟩, ⟨0xF0FF, 0xF018, fun w => .ldStVx (fieldX w)⟩ ] ++
  [ ⟨0xF0FF, 0xF01E, fun w => .addI (fieldX w)⟩, ⟨0xF0FF, 0xF029, fun w => .ldF (fieldX w)⟩,
    ⟨0xF0FF, 0xF033, fun w => .ldB (fieldX w)⟩, ⟨0xF0FF, 0xF055, fun w => .storeRegs (fieldX w)⟩,
    ⟨0xF0FF, 0xF065, fun w => .loadRegs (fieldX w)⟩ ]

/-- The first row of the map that a word matches (R77). -/
def firstRow (op : Word) : Option Instr :=
  (opcodeMap.find? (fun r => op &&& r.mask == r.pattern)).map (fun r => r.instr op)

end Sys2Proof.Machine
end

