-- ==== Sys2Proof/Certificates/Slice0/Obligations.lean ====
section
/-! DEFINITION. The statements for the provers. `exec i s` takes the state in which PC already holds `PC_fetch + 2`
(spec/00_scope.md R16, 30_encoding.md R70). "The spec's decision Dn" names a row of spec/92_eei_decisions.md: where a
statement rests on one, its basis is 'derived'. -/

open Sys2Proof Sys2Proof.Machine

/-! ### Encoding -/

/-- Decoding the opcode of a well-formed instruction gives it back, every operand at every value (30_encoding.md
sections 2 and 3; bit patterns by the spec's general knowledge, log 1). -/
def Obligations.DecodeOfEncode : Prop :=
  ∀ i : Instr, i.wf = true → decode (encode i) = .ok i

/-- A word that decodes is the opcode of the instruction it decodes to, which is well-formed: no bit is dropped. -/
def Obligations.EncodeOfDecode : Prop :=
  ∀ (w : Word) (i : Instr), decode w = .ok i → encode i = w ∧ i.wf = true

/-- The decoder's dispatch by nibbles and bytes (R75) is the first matching row of the opcode map (R76, R77), and a
word that matches no row is rejected. -/
def Obligations.DecodeIsFirstRowOfOpcodeMap : Prop :=
  ∀ w : Word, (decode w).toOption = firstRow w

/-- R78: the words that are no row of the map are those of the three lists, and they and the words of group 0 but
`00E0` and `00EE` do nothing but the fetch, in every variant. -/
def Obligations.UnassignedWordsAreNoOps : Prop :=
  ∀ w : Word,
    let listed := (fieldH w = 0x8 ∧ fieldN w ∈ [0x8#4, 0x9, 0xA, 0xB, 0xC, 0xD, 0xF]) ∨
      (fieldH w = 0xE ∧ fieldNN w ∉ [0x9E#8, 0xA1]) ∨
      (fieldH w = 0xF ∧ fieldNN w ∉ [0x07#8, 0x0A, 0x15, 0x18, 0x1E, 0x29, 0x33, 0x55, 0x65])
    ((∃ why, decode w = .error why) ↔ listed) ∧
    ∀ s : State, fetch s = w → (listed ∨ (fieldH w = 0x0 ∧ w ≠ 0x00E0 ∧ w ≠ 0x00EE)) →
      step s = .next { hostTurn s with pc := s.pc + 2 }

/-- Words written out from the spec's encodings, one or more of each family, decode to their instructions (R72, R76). -/
def Obligations.SampleWordsDecode : Prop :=
  decode 0x00E0 = .ok .cls ∧ decode 0x00EE = .ok .ret ∧ decode 0x0123 = .ok (.sys 0x123) ∧
  decode 0x1234 = .ok (.jp 0x234) ∧ decode 0x2300 = .ok (.call 0x300) ∧ decode 0x3A05 = .ok (.seImm 0xA 0x05) ∧
  decode 0x5121 = .ok (.seReg 0x1 0x2 0x1) ∧ decode 0x6005 = .ok (.ldImm 0x0 0x05) ∧
  decode 0xC30F = .ok (.rnd 0x3 0x0F) ∧ decode 0x8AB4 = .ok (.addReg 0xA 0xB) ∧
  decode 0x812E = .ok (.shlReg 0x1 0x2) ∧ decode 0xA300 = .ok (.ldI 0x300) ∧
  decode 0xFA33 = .ok (.ldB 0xA) ∧ decode 0xF255 = .ok (.storeRegs 0x2) ∧ decode 0xD015 = .ok (.drw 0x0 0x1 0x5) ∧
  decode 0xE19E = .ok (.skp 0x1) ∧ decode 0xF30A = .ok (.ldVxK 0x3) ∧ decode 0xFA15 = .ok (.ldDtVx 0xA) ∧
  decode 0x8128 = .error .aluSelector ∧ decode 0xE1FF = .error .keySelector ∧ decode 0xF1FF = .error .miscSelector

/-! ### The Step -/

/-- Where the two bytes at PC, big-endian, decode to an instruction, a step is the host's turn, the advance of PC, and
that instruction (R70, R71). The host's turn (log 15, log 16) is the first batch of the schedule, in order; it changes
the timers, the keypad and the schedule only. -/
def Obligations.StepRunsDecodedInstruction : Prop :=
  ∀ s : State,
    hostTurn s = (s.schedule.headD []).foldl hostAct { s with schedule := s.schedule.tail } ∧
    hostTurn s = { s with dt := (hostTurn s).dt, st := (hostTurn s).st, key := (hostTurn s).key,
                          schedule := s.schedule.tail } ∧
    ∀ i : Instr, decode (opcodeOf (s.readByte s.pc.toNat) (s.readByte (s.pc.toNat + 1))) = .ok i →
      step s = exec i { hostTurn s with pc := s.pc + 2 }

/-- R190: every Step, and every transition, answers a next state; none faults or is refused. -/
def Obligations.StepAlwaysAnswersNextState : Prop :=
  (∀ s : State, Completes (step s)) ∧ ∀ (i : Instr) (s : State), Completes (exec i s)

/-- Every step keeps the memory list in its canonical form: addresses strictly rising and below 4096, no listed byte
equal to the reset contents (the model's form of MEM, log 23). -/
def Obligations.StepKeepsMemoryCanonical : Prop :=
  ∀ s t : State, s.Inv → step s = .next t → t.Inv

/-- Memory is in its canonical form at reset and after every successful load (log 23). -/
def Obligations.ResetAndLoadGiveCanonicalMemory : Prop :=
  State.reset.Inv ∧
  ∀ (params : Parameters) (variant : Variant) (image : Option (List Byte)) (s : State),
    load params variant image = .next s → s.Inv

/-- Every state that a run reaches, under every order of Steps and host actions, has its memory in canonical form. -/
def Obligations.ReachableMemoryIsCanonical : Prop :=
  ∀ s : State, Reachable s → s.Inv

/-- The reference schedule of R207 held in the state is the host's frame loop: running `ipf` steps a frame with it, and
then the host's last turn, is `ipf` Steps, one tick and the key writes for each frame. -/
def Obligations.ReferenceScheduleIsTheFrameLoop : Prop :=
  ∀ (ipf : Nat) (frames : List (List (KeyCode × Bool))) (s : State), s.schedule = [] →
    mapNext hostTurn (runSteps (ipf * frames.length)
      { s with schedule := referenceSchedule ipf [] frames }) = frameLoop ipf frames s

/-! ### Session start -/

/-- Load (R220, R221), for all values of the parameters of R11 (log 29): an image of at most 3584 bytes gives a state
with the session's font below 0x050, the image from 0x200 on, zero elsewhere, the session's variant and overflow policy,
and everything else as at reset, but V, DT, ST and DISP as free draws where `INIT_REGS_ZERO` is false (D11, log 13); a
longer image and an unreadable source give LoadError. -/
def Obligations.LoadCreatesTheSessionOrFails : Prop :=
  ∀ (params : Parameters) (variant : Variant),
    load params variant none = .fault .imageUnreadable ∧
    ∀ image : List Byte,
      (3584 < image.length → load params variant (some image) = .fault .imageTooLarge) ∧
      (image.length ≤ 3584 → ∃ s, load params variant (some image) = .next s ∧
        (let given := { State.reset with mem := s.mem, variant := variant, overflow := params.stackOverflowPolicy }
         let free := Config.powerOn
         s = if params.initRegsZero then given
             else { given with v := free.v, dt := free.dt, st := free.st, disp := free.disp }) ∧
        ∀ a : Nat, a < 4096 →
          s.readByte a = if h : a < 80 then params.font[a]
            else if 0x200 ≤ a ∧ a < 0x200 + image.length then image.getD (a - 0x200) 0 else 0)

/-- The values after session start (R43): PC, SP, I and memory as the source gives them; V, DT, ST, STACK, DISP, KEY and
WAITKEY by the spec's decision D11 (log 13); the font bytes are the spec's general knowledge (log 2). The overflow policy
is the value of the spec's decision D3 (log 5); the variant is the model's choice (log 3). These are the values of a load
with the parameters' values of R11 and an empty image (log 22). -/
def Obligations.ResetValues : Prop :=
  State.reset.pc = 0x200 ∧ State.reset.sp = 0 ∧ State.reset.i = 0 ∧ (∀ z, State.reset.getV z = 0) ∧
  State.reset.dt = 0 ∧ State.reset.st = 0 ∧ (∀ (k : Nat) (hk : k < 12), State.reset.stack[k] = 0) ∧
  (∀ x y, pixel State.reset.disp x y = false) ∧ (∀ k, State.reset.keyDown k = false) ∧
  State.reset.waitKey = none ∧ State.reset.overflow = .reject ∧
  load specParameters State.reset.variant (some []) = .next State.reset ∧
  ∀ a : Nat, State.reset.readByte a = if a % 4096 < 80 then font.getD (a % 4096) 0 else 0

/-! ### Memory -/

/-- A stored byte is what every later read of that address gives, every other address reads as before, and the next
fetch sees it in either half of the opcode (R61, R64). Addresses wrap byte by byte (the spec's decision D5, log 7). -/
def Obligations.StoredByteIsReadAndFetched : Prop :=
  ∀ (s : State) (a : Nat) (b : Byte),
    (∀ c : Nat, (s.writeByte a b).readByte c = if c % 4096 = a % 4096 then b else s.readByte c) ∧
    (a % 4096 = s.pc.toNat % 4096 → fetch (s.writeByte a b) = b ++ fieldNN (fetch s)) ∧
    (a % 4096 = (s.pc.toNat + 1) % 4096 → fetch (s.writeByte a b) = fieldH (fetch s) ++ fieldX (fetch s) ++ b)

/-! ### Control flow -/

/-- R91: `0NNN` other than `00E0` and `00EE` does nothing. -/
def Obligations.SysDoesNothing : Prop :=
  ∀ (nnn : Addr12) (s : State), nnn ≠ 0x0E0 → nnn ≠ 0x0EE →
    decode (0x0#4 ++ nnn) = .ok (.sys nnn) ∧ exec (.sys nnn) s = .next s

/-- R92: `1NNN` sets PC to NNN and nothing else. -/
def Obligations.JumpSetsPc : Prop :=
  ∀ (nnn : Addr12) (s : State), decode (0x1#4 ++ nnn) = .ok (.jp nnn) ∧
    ∃ t, exec (.jp nnn) s = .next t ∧ t.pc.toNat = nnn.toNat ∧ OnlyPc s t

/-- `2NNN` with room on the stack: the return address, PC after the fetch, is saved and PC becomes NNN (R29, R93). -/
def Obligations.CallPushesAndJumps : Prop :=
  ∀ (nnn : Addr12) (s : State) (h : s.sp.val < 12),
    ∃ t, exec (.call nnn) s = .next t ∧ t.pc.toNat = nnn.toNat ∧ t.sp.val = s.sp.val + 1 ∧
      t.stack[s.sp.val] = s.pc ∧ (∀ (k : Nat) (hk : k < 12), k ≠ s.sp.val → t.stack[k] = s.stack[k]) ∧
      t = { s with pc := t.pc, sp := t.sp, stack := t.stack } ∧ SameBytes s t

/-- `2NNN` with twelve saved addresses, under both values of the session's overflow policy (R29, R93): under Reject it
is a no-op; under DropOldest the oldest address is discarded and the call proceeds. That Reject is the parameter's value
is the spec's decision D3 (log 5). -/
def Obligations.CallOnFullStack : Prop :=
  ∀ (nnn : Addr12) (s : State), s.sp.val = 12 →
    (s.overflow = .reject → exec (.call nnn) s = .next s) ∧
    (s.overflow = .dropOldest → ∃ t, exec (.call nnn) s = .next t ∧ t.pc.toNat = nnn.toNat ∧ t.stack[11] = s.pc ∧
      (∀ (k : Nat) (hk : k < 11), t.stack[k] = s.stack[k + 1]) ∧ t = { s with pc := t.pc, stack := t.stack } ∧
      SameBytes s t)

/-- `00EE` with a saved address: PC is the top of the stack, the cursor goes down, no slot changes (R30, R94). -/
def Obligations.ReturnPopsIntoPc : Prop :=
  ∀ (s : State) (h : 0 < s.sp.val),
    ∃ t, exec .ret s = .next t ∧ t.sp.val + 1 = s.sp.val ∧ t.pc = s.stack[s.sp.val - 1] ∧
      t = { s with pc := t.pc, sp := t.sp } ∧ SameBytes s t

/-- `00EE` on an empty stack is a no-op, with PC at `PC_fetch + 2` (the spec's decision D4, log 6). -/
def Obligations.ReturnOnEmptyStackIsNoOp : Prop :=
  ∀ s : State, s.sp.val = 0 → exec .ret s = .next s

/-- A call with room and then a return: PC is back at the opcode after the call, the cursor as before, and no saved
address below it has changed (R93, R94). -/
def Obligations.ReturnUndoesCall : Prop :=
  ∀ (nnn : Addr12) (s : State), s.sp.val < 12 →
    ∃ t u, exec (.call nnn) s = .next t ∧ exec .ret t = .next u ∧
      u = { s with stack := u.stack } ∧ ∀ (k : Nat) (hk : k < 12), k < s.sp.val → u.stack[k] = s.stack[k]

/-- R95, R96: `3XNN` skips one opcode if `V[X] = NN`, `4XNN` if not; nothing but PC changes. -/
def Obligations.SkipOnImmediate : Prop :=
  ∀ (x : Nibble) (nn : Byte) (s : State),
    decode (0x3#4 ++ x ++ nn) = .ok (.seImm x nn) ∧ decode (0x4#4 ++ x ++ nn) = .ok (.sneImm x nn) ∧
    (∃ t, exec (.seImm x nn) s = .next t ∧ t.pc = (if s.getV x = nn then s.pc + 2 else s.pc) ∧ OnlyPc s t) ∧
    (∃ t, exec (.sneImm x nn) s = .next t ∧ t.pc = (if s.getV x = nn then s.pc else s.pc + 2) ∧ OnlyPc s t)

/-- `5XYN` skips one opcode if `V[X] = V[Y]`, `9XYN` if not, whatever the low nibble is (the spec's decision D10,
log 17); nothing but PC changes. -/
def Obligations.SkipOnRegisters : Prop :=
  ∀ (x y n : Nibble) (s : State),
    decode (0x5#4 ++ x ++ y ++ n) = .ok (.seReg x y n) ∧ decode (0x9#4 ++ x ++ y ++ n) = .ok (.sneReg x y n) ∧
    (∃ t, exec (.seReg x y n) s = .next t ∧ t.pc = (if s.getV x = s.getV y then s.pc + 2 else s.pc) ∧ OnlyPc s t) ∧
    (∃ t, exec (.sneReg x y n) s = .next t ∧ t.pc = (if s.getV x = s.getV y then s.pc else s.pc + 2) ∧ OnlyPc s t)

/-- R99: `BNNN` sets PC to the exact sum of `V[0]` and NNN, in every variant. -/
def Obligations.JumpWithOffset : Prop :=
  ∀ (nnn : Addr12) (s : State), decode (0xB#4 ++ nnn) = .ok (.jpV0 nnn) ∧
    ∃ t, exec (.jpV0 nnn) s = .next t ∧ t.pc.toNat = (s.getV 0).toNat + nnn.toNat ∧ OnlyPc s t

/-! ### Immediate and random -/

/-- R111: `6XNN`. -/
def Obligations.LoadImmediate : Prop :=
  ∀ (x : Nibble) (nn : Byte) (s : State), decode (0x6#4 ++ x ++ nn) = .ok (.ldImm x nn) ∧
    ∃ t, exec (.ldImm x nn) s = .next t ∧ t.getV x = nn ∧ OnlyV [x] s t

/-- R112: `7XNN` adds modulo 256 and writes no flag. -/
def Obligations.AddImmediate : Prop :=
  ∀ (x : Nibble) (nn : Byte) (s : State), decode (0x7#4 ++ x ++ nn) = .ok (.addImm x nn) ∧
    ∃ t, exec (.addImm x nn) s = .next t ∧ (t.getV x).toNat = ((s.getV x).toNat + nn.toNat) % 256 ∧ OnlyV [x] s t

/-- `CXNN` writes the draw masked by NN and spends it (R113). The draw is a free value (the spec's decision D12,
log 14): the statement holds whatever it is. -/
def Obligations.RandomAnd : Prop :=
  ∀ (x : Nibble) (nn : Byte) (s : State), decode (0xC#4 ++ x ++ nn) = .ok (.rnd x nn) ∧
    ∃ t, exec (.rnd x nn) s = .next t ∧ t.getV x = Config.draw s.draws &&& nn ∧ (nn = 0 → t.getV x = 0) ∧
      (∀ z, z ≠ x → t.getV z = s.getV z) ∧ t = { s with v := t.v, draws := s.draws + 1 } ∧ SameBytes s t

/-! ### Register ALU -/

/-- R121: `8XY0`. -/
def Obligations.AssignRegister : Prop :=
  ∀ (x y : Nibble) (s : State), decode (0x8#4 ++ x ++ y ++ 0x0#4) = .ok (.ldReg x y) ∧
    ∃ t, exec (.ldReg x y) s = .next t ∧ t.getV x = s.getV y ∧ OnlyV [x] s t

/-- `8XY1`, `8XY2`, `8XY3` (R122 to R124): the bitwise result, and then `V[0xF] <- 0` where `QuirkLogicVF` holds: in
Baseline, not in Extended, and in ExtendedStream by its free quirk (the spec's decision D2, log 4). -/
def Obligations.LogicalOperations : Prop :=
  (quirksOf .baseline).logicVF = true ∧ (quirksOf .extended).logicVF = false ∧
  ∀ (x y : Nibble) (s : State),
    (∃ t, exec (.orReg x y) s = .next t ∧
      LogicResult (quirksOf s.variant).logicVF x (s.getV x ||| s.getV y) s t) ∧
    (∃ t, exec (.andReg x y) s = .next t ∧
      LogicResult (quirksOf s.variant).logicVF x (s.getV x &&& s.getV y) s t) ∧
    (∃ t, exec (.xorReg x y) s = .next t ∧
      LogicResult (quirksOf s.variant).logicVF x (s.getV x ^^^ s.getV y) s t)

/-- R125: `8XY4`, the sum modulo 256 and then the carry, which overwrites the result where X is the flag register. -/
def Obligations.AddRegisters : Prop :=
  ∀ (x y : Nibble) (s : State), decode (0x8#4 ++ x ++ y ++ 0x4#4) = .ok (.addReg x y) ∧
    ∃ t, exec (.addReg x y) s = .next t ∧
      (x ≠ 0xF → (t.getV x).toNat = ((s.getV x).toNat + (s.getV y).toNat) % 256) ∧
      t.getV 0xF = (if (s.getV x).toNat + (s.getV y).toNat > 255 then 1 else 0) ∧ OnlyV [x, 0xF] s t

/-- R126: `8XY5`, V[X] minus V[Y] modulo 256 and then the no-borrow flag. -/
def Obligations.SubtractRegisters : Prop :=
  ∀ (x y : Nibble) (s : State), decode (0x8#4 ++ x ++ y ++ 0x5#4) = .ok (.subReg x y) ∧
    ∃ t, exec (.subReg x y) s = .next t ∧
      (x ≠ 0xF → (t.getV x).toNat = ((s.getV x).toNat + 256 - (s.getV y).toNat) % 256) ∧
      t.getV 0xF = (if (s.getV y).toNat ≤ (s.getV x).toNat then 1 else 0) ∧ OnlyV [x, 0xF] s t

/-- `8XY7`, V[Y] minus V[X] modulo 256 and then the no-borrow flag (R128: the flag is the spec's inference, the operand
order its general knowledge G3, log 18). -/
def Obligations.SubtractReversed : Prop :=
  ∀ (x y : Nibble) (s : State), decode (0x8#4 ++ x ++ y ++ 0x7#4) = .ok (.subnReg x y) ∧
    ∃ t, exec (.subnReg x y) s = .next t ∧
      (x ≠ 0xF → (t.getV x).toNat = ((s.getV y).toNat + 256 - (s.getV x).toNat) % 256) ∧
      t.getV 0xF = (if (s.getV x).toNat ≤ (s.getV y).toNat then 1 else 0) ∧ OnlyV [x, 0xF] s t

/-- `8XY6` (R127): the source, V[Y] in Baseline, V[X] in Extended, by its free quirk in ExtendedStream (the spec's
decision D2, log 4), shifted right by one, and then the bit shifted out. -/
def Obligations.ShiftRight : Prop :=
  (quirksOf .baseline).shiftVY = true ∧ (quirksOf .extended).shiftVY = false ∧
  ∀ (x y : Nibble) (s : State), decode (0x8#4 ++ x ++ y ++ 0x6#4) = .ok (.shrReg x y) ∧
    let src := if (quirksOf s.variant).shiftVY then s.getV y else s.getV x
    ∃ t, exec (.shrReg x y) s = .next t ∧ (x ≠ 0xF → (t.getV x).toNat = src.toNat / 2) ∧
      (t.getV 0xF).toNat = src.toNat % 2 ∧ OnlyV [x, 0xF] s t

/-- `8XYE` (R129): the same source shifted left by one modulo 256, and then the bit shifted out. -/
def Obligations.ShiftLeft : Prop :=
  (quirksOf .baseline).shiftVY = true ∧ (quirksOf .extended).shiftVY = false ∧
  ∀ (x y : Nibble) (s : State), decode (0x8#4 ++ x ++ y ++ 0xE#4) = .ok (.shlReg x y) ∧
    let src := if (quirksOf s.variant).shiftVY then s.getV y else s.getV x
    ∃ t, exec (.shlReg x y) s = .next t ∧ (x ≠ 0xF → (t.getV x).toNat = src.toNat * 2 % 256) ∧
      (t.getV 0xF).toNat = src.toNat / 128 ∧ OnlyV [x, 0xF] s t

/-! ### Index register and memory -/

/-- R141: `ANNN`; the upper four bits of I become 0. -/
def Obligations.SetIndex : Prop :=
  ∀ (nnn : Addr12) (s : State), decode (0xA#4 ++ nnn) = .ok (.ldI nnn) ∧
    ∃ t, exec (.ldI nnn) s = .next t ∧ t.i.toNat = nnn.toNat ∧ OnlyI s t

/-- `FX1E` (R142): I plus V[X]; no flag. The wrap at 2^16 is the spec's decision D6 (log 9). -/
def Obligations.AddToIndex : Prop :=
  ∀ (x : Nibble) (s : State), decode (0xF#4 ++ x ++ 0x1E#8) = .ok (.addI x) ∧
    ∃ t, exec (.addI x) s = .next t ∧ t.i.toNat = (s.i.toNat + (s.getV x).toNat) % 65536 ∧ OnlyI s t

/-- R143: `FX29`, five times V[X], unmasked. -/
def Obligations.FontCharacterAddress : Prop :=
  ∀ (x : Nibble) (s : State), decode (0xF#4 ++ x ++ 0x29#8) = .ok (.ldF x) ∧
    ∃ t, exec (.ldF x) s = .next t ∧ t.i.toNat = (s.getV x).toNat * 5 ∧ OnlyI s t

/-- R144: `FX33` stores the hundreds, tens and ones of V[X] at the bytes I, I + 1, I + 2, and nothing else changes. -/
def Obligations.StoreBcdDigits : Prop :=
  ∀ (x : Nibble) (s : State), decode (0xF#4 ++ x ++ 0x33#8) = .ok (.ldB x) ∧
    ∃ t, exec (.ldB x) s = .next t ∧
      (t.readByte (dataAddr s 0)).toNat = (s.getV x).toNat / 100 ∧
      (t.readByte (dataAddr s 1)).toNat = (s.getV x).toNat / 10 % 10 ∧
      (t.readByte (dataAddr s 2)).toNat = (s.getV x).toNat % 10 ∧
      SameBytesOutside [addr (dataAddr s 0), addr (dataAddr s 1), addr (dataAddr s 2)] s t ∧
      t = { s with mem := t.mem }

/-- `FX55` (R145): byte I + k becomes V[k] for k = 0..X, no other byte changes, and I is advanced by X + 1 in Baseline,
not in Extended, by its free quirk in ExtendedStream (the spec's decision D2, log 4). -/
def Obligations.RegisterDump : Prop :=
  (quirksOf .baseline).incI = true ∧ (quirksOf .extended).incI = false ∧
  ∀ (x : Nibble) (s : State), decode (0xF#4 ++ x ++ 0x55#8) = .ok (.storeRegs x) ∧
    ∃ t, exec (.storeRegs x) s = .next t ∧
      (∀ z : Nibble, z.toNat ≤ x.toNat → t.readByte (dataAddr s z.toNat) = s.getV z) ∧
      SameBytesOutside ((List.range (x.toNat + 1)).map fun k => addr (dataAddr s k)) s t ∧
      t.i.toNat = (if (quirksOf s.variant).incI then (s.i.toNat + x.toNat + 1) % 65536 else s.i.toNat) ∧
      t = { s with mem := t.mem, i := t.i }

/-- `FX65` (R146): V[k] becomes the byte at I + k for k = 0..X, no other register changes, and I as for `FX55`. -/
def Obligations.RegisterLoad : Prop :=
  (quirksOf .baseline).incI = true ∧ (quirksOf .extended).incI = false ∧
  ∀ (x : Nibble) (s : State), decode (0xF#4 ++ x ++ 0x65#8) = .ok (.loadRegs x) ∧
    ∃ t, exec (.loadRegs x) s = .next t ∧
      (∀ z : Nibble, t.getV z = if z.toNat ≤ x.toNat then s.readByte (dataAddr s z.toNat) else s.getV z) ∧
      t.i.toNat = (if (quirksOf s.variant).incI then (s.i.toNat + x.toNat + 1) % 65536 else s.i.toNat) ∧
      t = { s with v := t.v, i := t.i } ∧ SameBytes s t

/-! ### Display -/

/-- R161: `00E0` turns every pixel off and changes nothing else. -/
def Obligations.ClearDisplay : Prop :=
  ∀ s : State, decode 0x00E0 = .ok .cls ∧
    ∃ t, exec .cls s = .next t ∧ (∀ x y, x < 64 → y < 32 → pixel t.disp x y = false) ∧
      t = { s with disp := t.disp } ∧ SameBytes s t

/-- `DXYN` (R160, R162): each pixel is XORed with the sprite's bit for it, the position wrapped, the sprite clipped; of
the registers only the flag register may change. The position is read before the flag register is cleared and N = 0
draws nothing (the spec's decision D9, log 12). -/
def Obligations.DrawXorsTheSprite : Prop :=
  ∀ (x y n : Nibble) (s : State), decode (0xD#4 ++ x ++ y ++ n) = .ok (.drw x y n) ∧
    ∃ t, exec (.drw x y n) s = .next t ∧
      (∀ px py, px < 64 → py < 32 →
        pixel t.disp px py = (pixel s.disp px py ^^ spriteCovers s x y n px py)) ∧
      (∀ z, z ≠ 0xF → t.getV z = s.getV z) ∧ t = { s with disp := t.disp, v := t.v } ∧ SameBytes s t

/-- `DXYN`'s flag (R162, R163): 1 if a set sprite bit met a pixel of the grid that was on, else 0 (position and N = 0
by the spec's decision D9, log 12). -/
def Obligations.DrawSetsTheCollisionFlag : Prop :=
  ∀ (x y n : Nibble) (s t : State), exec (.drw x y n) s = .next t →
    ((∃ px py, px < 64 ∧ py < 32 ∧ spriteCovers s x y n px py = true ∧ pixel s.disp px py = true) →
      t.getV 0xF = 1) ∧
    ((∀ px py, px < 64 → py < 32 → spriteCovers s x y n px py = true → pixel s.disp px py = false) →
      t.getV 0xF = 0)

/-- The same sprite drawn twice at the same position restores the display, where neither coordinate register is the
flag register (R163). -/
def Obligations.DrawTwiceRestoresTheDisplay : Prop :=
  ∀ (x y n : Nibble) (s : State), x ≠ 0xF → y ≠ 0xF →
    ∃ t u, exec (.drw x y n) s = .next t ∧ exec (.drw x y n) t = .next u ∧ u.disp = s.disp

/-! ### Keypad and timers -/

/-- `EX9E` skips if the key named by the low four bits of V[X] is down, `EXA1` if it is up (R171, R172; the low four
bits are the spec's decision D7, log 10); nothing but PC changes. -/
def Obligations.SkipOnKey : Prop :=
  ∀ (x : Nibble) (s : State),
    decode (0xE#4 ++ x ++ 0x9E#8) = .ok (.skp x) ∧ decode (0xE#4 ++ x ++ 0xA1#8) = .ok (.sknp x) ∧
    let k : KeyCode := BitVec.ofNat 4 ((s.getV x).toNat % 16)
    (∃ t, exec (.skp x) s = .next t ∧ t.pc = (if s.keyDown k then s.pc + 2 else s.pc) ∧ OnlyPc s t) ∧
    (∃ t, exec (.sknp x) s = .next t ∧ t.pc = (if s.keyDown k then s.pc else s.pc + 2) ∧ OnlyPc s t)

/-- `FX0A` (R173, details by the spec's decision D8, log 11): with no key recorded it records the lowest key that is
down, and with one recorded it waits for that key's release; while it waits PC is `PC_fetch`; at the release V[X] is
the key and the wait ends. -/
def Obligations.WaitForKey : Prop :=
  ∀ (x : Nibble) (s : State),
    (s.waitKey = none → (∀ k, s.keyDown k = false) → exec (.ldVxK x) s = .next { s with pc := s.pc - 2 }) ∧
    (∀ k : KeyCode, s.waitKey = none → s.keyDown k = true → (∀ j : KeyCode, j.toNat < k.toNat → s.keyDown j = false) →
      exec (.ldVxK x) s = .next { s with pc := s.pc - 2, waitKey := some k }) ∧
    (∀ k : KeyCode, s.waitKey = some k → s.keyDown k = true →
      exec (.ldVxK x) s = .next { s with pc := s.pc - 2 }) ∧
    (∀ k : KeyCode, s.waitKey = some k → s.keyDown k = false →
      ∃ t, exec (.ldVxK x) s = .next t ∧ (t.getV x).toNat = k.toNat ∧ (∀ z, z ≠ x → t.getV z = s.getV z) ∧
        t = { s with v := t.v, waitKey := none } ∧ SameBytes s t)

/-- With no key down, none recorded and no host action to come, repeated steps of the same `FX0A` change nothing, for
ever (R173). -/
def Obligations.WaitStallsWithoutAKey : Prop :=
  ∀ (x : Nibble) (s : State) (n : Nat), decode (fetch s) = .ok (.ldVxK x) → s.schedule = [] → s.waitKey = none →
    (∀ k, s.keyDown k = false) → runSteps n s = .next s

/-- A key pressed before one step of `FX0A` and released before the next completes the wait: PC has advanced exactly
once and V[X] is the key's code (R173). -/
def Obligations.PressAndReleaseCompleteTheWait : Prop :=
  ∀ (x : Nibble) (k : KeyCode) (rest : List (List HostAction)) (s : State), decode (fetch s) = .ok (.ldVxK x) →
    s.schedule = [.setKey k true] :: [.setKey k false] :: rest → s.waitKey = none → (∀ j, s.keyDown j = false) →
    ∃ t u, step s = .next t ∧ t.pc = s.pc ∧ t.waitKey = some k ∧ (∀ z, t.getV z = s.getV z) ∧
      step t = .next u ∧ u.pc = s.pc + 2 ∧ u.waitKey = none ∧ (u.getV x).toNat = k.toNat ∧
      (∀ z, z ≠ x → u.getV z = s.getV z)

/-- `FX07` (R174): V[X] becomes DT; no flag, no other change. -/
def Obligations.TimerGet : Prop :=
  ∀ (x : Nibble) (s : State), decode (0xF#4 ++ x ++ 0x07#8) = .ok (.ldVxDt x) ∧
    ∃ t, exec (.ldVxDt x) s = .next t ∧ t.getV x = s.dt ∧ OnlyV [x] s t

/-- R175: `FX15` sets DT to V[X]; after n ticks it holds V[X] - n, floored at 0; no other instruction and no tick
increases DT. -/
def Obligations.DelayTimerSet : Prop :=
  (∀ s : State, (tick s).dt.toNat ≤ s.dt.toNat) ∧
  (∀ (i : Instr) (s t : State), exec i s = .next t → s.dt.toNat < t.dt.toNat → ∃ x, i = .ldDtVx x) ∧
  ∀ (x : Nibble) (s : State), decode (0xF#4 ++ x ++ 0x15#8) = .ok (.ldDtVx x) ∧
    ∃ t, exec (.ldDtVx x) s = .next t ∧ t.dt = s.getV x ∧ t = { s with dt := t.dt } ∧ SameBytes s t ∧
      ∀ n : Nat, (tick^[n] t).dt.toNat = (s.getV x).toNat - n

/-- `FX18` (R176): ST becomes V[X] at once with TONE (the spec's decision D19, log 20); the tone lasts until the tick
that brings ST to 0. -/
def Obligations.SoundTimerSet : Prop :=
  ∀ (x : Nibble) (s : State), decode (0xF#4 ++ x ++ 0x18#8) = .ok (.ldStVx x) ∧
    ∃ t, exec (.ldStVx x) s = .next t ∧ t.st = s.getV x ∧ t = { s with st := t.st } ∧ SameBytes s t ∧
      ∀ n : Nat, (tick^[n] t).st.toNat = (s.getV x).toNat - n ∧ tone (tick^[n] t) = decide (n < (s.getV x).toNat)

/-- R200: a tick decrements both timers, floored at 0, and writes nothing else; the tone is then on while ST > 0. -/
def Obligations.TickDecrementsBothTimers : Prop :=
  ∀ s : State, (tick s).dt.toNat = s.dt.toNat - 1 ∧ (tick s).st.toNat = s.st.toNat - 1 ∧
    tick s = { s with dt := (tick s).dt, st := (tick s).st } ∧ SameBytes s (tick s) ∧
    tone (tick s) = decide (1 < s.st.toNat)

/-- R201: after N ticks a timer holds max(0, initial - N), and never wraps below 0. -/
def Obligations.TimersAfterTicks : Prop :=
  ∀ (n : Nat) (s : State),
    (tick^[n] s).dt.toNat = max 0 ((s.dt.toNat : Int) - n) ∧ (tick^[n] s).st.toNat = max 0 ((s.st.toNat : Int) - n)

/-- R206: a key write sets that key and changes nothing else; the instructions only read the keypad. -/
def Obligations.SetKeyWritesOneKey : Prop :=
  (∀ (i : Instr) (s t : State), exec i s = .next t → t.key = s.key) ∧
  ∀ (k : KeyCode) (down : Bool) (s : State),
    (∀ j, (setKey k down s).keyDown j = if j = k then down else s.keyDown j) ∧
    setKey k down s = { s with key := (setKey k down s).key } ∧ SameBytes s (setKey k down s)

/-! ### The whole machine -/

/-- The writers of V are those of R23 and no other. -/
def Obligations.WritersOfRegisters : Prop :=
  ∀ (i : Instr) (s t : State) (z : Nibble), exec i s = .next t → t.getV z ≠ s.getV z →
    mayWriteV s.variant i z = true

/-- The writers of I, the stack, the timers, WAITKEY, the draws, memory and the display (R27, R28, R31, R32, R34, R36,
R42, R50): no other instruction changes them. -/
def Obligations.WritersOfTheOtherElements : Prop :=
  ∀ (i : Instr) (s t : State), exec i s = .next t →
    (t.i ≠ s.i → mayWriteI s.variant i = true) ∧
    (t.sp ≠ s.sp → i = .ret ∨ ∃ nnn, i = .call nnn) ∧ (t.stack ≠ s.stack → ∃ nnn, i = .call nnn) ∧
    (t.dt ≠ s.dt → ∃ x, i = .ldDtVx x) ∧ (t.st ≠ s.st → ∃ x, i = .ldStVx x) ∧
    (t.waitKey ≠ s.waitKey → ∃ x, i = .ldVxK x) ∧ (t.draws ≠ s.draws → ∃ x nn, i = .rnd x nn) ∧
    ((∃ a, t.readByte a ≠ s.readByte a) → ∃ x, i = .ldB x ∨ i = .storeRegs x) ∧
    (t.disp ≠ s.disp → i = .cls ∨ ∃ x y n, i = .drw x y n)

/-- The variant (R37) and the overflow policy (a parameter of R11, held in the state by log 29) are fixed for the
session: no host action changes them, and a run of any length keeps them. -/
def Obligations.VariantIsFixedForTheSession : Prop :=
  (∀ (s : State) (a : HostAction), (hostAct s a).variant = s.variant ∧ (hostAct s a).overflow = s.overflow) ∧
  ∀ (n : Nat) (s t : State), runSteps n s = .next t → t.variant = s.variant ∧ t.overflow = s.overflow

/-- Where the instruction at PC does not set PC itself, and for an unassigned word, PC after the step is
`PC_fetch + 2` modulo 2^16 (R26). -/
def Obligations.PcAdvancesByTwo : Prop :=
  ∀ s t : State, step s = .next t →
    (∀ i, decode (fetch s) = .ok i → maySetPc i = false → t.pc.toNat = (s.pc.toNat + 2) % 65536) ∧
    (∀ why, decode (fetch s) = .error why → t.pc.toNat = (s.pc.toNat + 2) % 65536)

/-- Only the seven opcodes of R80 depend on the variant (R12). -/
def Obligations.VariantChangesOnlySevenOpcodes : Prop :=
  ∀ (i : Instr) (variant : Variant) (s : State), dependsOnVariant i = false →
    exec i { s with variant := variant } = mapNext (fun t => { t with variant := variant }) (exec i s)
end

