-- ==== Sys2Proof/Laws/Decode.lean ====
section
/-! SUPPORT. The slices of a word written as its fields: each of R72's projections of `h ++ nnn`, `h ++ x ++ nn` and
`h ++ x ++ y ++ n`. -/

namespace Sys2Proof

/-- The bits of a word of the shape `nnn` (R74). -/
theorem bits_hnnn (h : Nibble) (nnn : Addr12) (k : Nat) :
    BitVec.getLsbD (w := 16) (h ++ nnn) k = if k < 12 then nnn.getLsbD k else h.getLsbD (k - 12) := by
  have := BitVec.getLsbD_append (x := h) (y := nnn) (i := k)
  simpa [Bool.cond_eq_ite] using this

/-- The bits of a word of the shape `xnn` (R74). -/
theorem bits_hxnn (h x : Nibble) (nn : Byte) (k : Nat) :
    BitVec.getLsbD (w := 16) (h ++ x ++ nn) k =
      if k < 8 then nn.getLsbD k else if k < 12 then x.getLsbD (k - 8) else h.getLsbD (k - 12) := by
  have h1 := BitVec.getLsbD_append (x := h ++ x) (y := nn) (i := k)
  have h2 := BitVec.getLsbD_append (x := h) (y := x) (i := k - 8)
  rw [h2] at h1
  refine h1.trans ?_
  split
  · rfl
  · by_cases hk : k < 12
    · rw [if_pos hk, if_pos (by omega)]
    · rw [if_neg hk, if_neg (by omega), Nat.sub_sub]

/-- The bits of a word of the shape `xyn` (R74). -/
theorem bits_hxyn (h x y n : Nibble) (k : Nat) :
    BitVec.getLsbD (w := 16) (h ++ x ++ y ++ n) k =
      if k < 4 then n.getLsbD k else if k < 8 then y.getLsbD (k - 4) else
        if k < 12 then x.getLsbD (k - 8) else h.getLsbD (k - 12) := by
  have h1 := BitVec.getLsbD_append (x := h ++ x ++ y) (y := n) (i := k)
  have h2 := BitVec.getLsbD_append (x := h ++ x) (y := y) (i := k - 4)
  have h3 := BitVec.getLsbD_append (x := h) (y := x) (i := k - 4 - 4)
  rw [h2, h3] at h1
  refine h1.trans ?_
  split
  · rfl
  · by_cases hk : k < 8
    · rw [if_pos hk, if_pos (by omega)]
    · rw [if_neg hk, if_neg (by omega)]
      by_cases hk2 : k < 12
      · rw [if_pos hk2, if_pos (by omega), Nat.sub_sub]
      · rw [if_neg hk2, if_neg (by omega), Nat.sub_sub, Nat.sub_sub]

@[simp] theorem fieldH_hnnn (h : Nibble) (nnn : Addr12) : fieldH (h ++ nnn) = h := by
  refine BitVec.eq_of_getLsbD_eq fun k hk => ?_
  rw [fieldH, BitVec.getLsbD_extractLsb', bits_hnnn]
  interval_cases k <;> simp

@[simp] theorem fieldNNN_hnnn (h : Nibble) (nnn : Addr12) : fieldNNN (h ++ nnn) = nnn := by
  refine BitVec.eq_of_getLsbD_eq fun k hk => ?_
  rw [fieldNNN, BitVec.getLsbD_extractLsb', bits_hnnn]
  interval_cases k <;> simp

@[simp] theorem fieldH_hxnn (h x : Nibble) (nn : Byte) : fieldH (h ++ x ++ nn) = h := by
  refine BitVec.eq_of_getLsbD_eq fun k hk => ?_
  rw [fieldH, BitVec.getLsbD_extractLsb', bits_hxnn]
  interval_cases k <;> simp

@[simp] theorem fieldX_hxnn (h x : Nibble) (nn : Byte) : fieldX (h ++ x ++ nn) = x := by
  refine BitVec.eq_of_getLsbD_eq fun k hk => ?_
  rw [fieldX, BitVec.getLsbD_extractLsb', bits_hxnn]
  interval_cases k <;> simp

@[simp] theorem fieldNN_hxnn (h x : Nibble) (nn : Byte) : fieldNN (h ++ x ++ nn) = nn := by
  refine BitVec.eq_of_getLsbD_eq fun k hk => ?_
  rw [fieldNN, BitVec.getLsbD_extractLsb', bits_hxnn]
  interval_cases k <;> simp

@[simp] theorem fieldH_hxyn (h x y n : Nibble) : fieldH (h ++ x ++ y ++ n) = h := by
  refine BitVec.eq_of_getLsbD_eq fun k hk => ?_
  rw [fieldH, BitVec.getLsbD_extractLsb', bits_hxyn]
  interval_cases k <;> simp

@[simp] theorem fieldX_hxyn (h x y n : Nibble) : fieldX (h ++ x ++ y ++ n) = x := by
  refine BitVec.eq_of_getLsbD_eq fun k hk => ?_
  rw [fieldX, BitVec.getLsbD_extractLsb', bits_hxyn]
  interval_cases k <;> simp

@[simp] theorem fieldY_hxyn (h x y n : Nibble) : fieldY (h ++ x ++ y ++ n) = y := by
  refine BitVec.eq_of_getLsbD_eq fun k hk => ?_
  rw [fieldY, BitVec.getLsbD_extractLsb', bits_hxyn]
  interval_cases k <;> simp

@[simp] theorem fieldN_hxyn (h x y n : Nibble) : fieldN (h ++ x ++ y ++ n) = n := by
  refine BitVec.eq_of_getLsbD_eq fun k hk => ?_
  rw [fieldN, BitVec.getLsbD_extractLsb', bits_hxyn]
  interval_cases k <;> simp

/-- A word is its four nibbles. -/
theorem word_eq_hxyn (w : Word) : w = fieldH w ++ fieldX w ++ fieldY w ++ fieldN w := by
  refine BitVec.eq_of_getLsbD_eq fun k hk => ?_
  rw [bits_hxyn]
  simp only [fieldH, fieldX, fieldY, fieldN, BitVec.getLsbD_extractLsb']
  interval_cases k <;> simp

/-- A word is its selector, its register field and its low byte. -/
theorem word_eq_hxnn (w : Word) : w = fieldH w ++ fieldX w ++ fieldNN w := by
  refine BitVec.eq_of_getLsbD_eq fun k hk => ?_
  rw [bits_hxnn]
  simp only [fieldH, fieldX, fieldNN, BitVec.getLsbD_extractLsb']
  interval_cases k <;> simp

/-- A word is its selector and its low 12 bits. -/
theorem word_eq_hnnn (w : Word) : w = fieldH w ++ fieldNNN w := by
  refine BitVec.eq_of_getLsbD_eq fun k hk => ?_
  rw [bits_hnnn]
  simp only [fieldH, fieldNNN, BitVec.getLsbD_extractLsb']
  interval_cases k <;> simp

end Sys2Proof
end

