-- ==== Sys2Proof/Laws/Memory.lean ====
section
/-! SUPPORT. The memory laws: a read after a write, and the canonical form kept by every memory operation. -/

namespace Sys2Proof.Machine

theorem addr_lt (a : Nat) : addr a < 4096 := Nat.mod_lt _ (by decide)

theorem Memory.read_erase (m : Memory) (a c : Nat) :
    (m.erase a).read c = if c = a then initialByte a else m.read c := by
  induction m with
  | nil => split <;> simp_all [Memory.erase, Memory.read]
  | cons d m ih =>
    by_cases hd : d.1 = a
    · have he : Memory.erase (d :: m) a = Memory.erase m a := by simp [Memory.erase, hd]
      rw [he, ih]
      split <;> simp_all [Memory.read]
    · have he : Memory.erase (d :: m) a = d :: Memory.erase m a := by simp [Memory.erase, hd]
      rw [he]
      by_cases hc : c = d.1
      · subst hc
        simp [Memory.read, hd]
      · simp [Memory.read, hc, ih]

theorem Memory.read_insert (e : Host.Cell) (m : Memory) (c : Nat) (h : ∀ d ∈ m, d.1 ≠ e.1) :
    (Memory.insert e m).read c = if c = e.1 then e.2 else m.read c := by
  induction m with
  | nil => simp [Memory.insert, Memory.read]
  | cons d m ih =>
    have hd : d.1 ≠ e.1 := h d (by simp)
    by_cases hlt : e.1 < d.1
    · simp [Memory.insert, hlt, Memory.read]
    · rw [Memory.insert, if_neg hlt, Memory.read, Memory.read, ih (fun x hx => h x (by simp [hx]))]
      by_cases hc : c = d.1
      · subst hc
        simp [hd]
      · simp [hc]

theorem Memory.not_mem_erase (m : Memory) (a : Nat) : ∀ d ∈ m.erase a, d.1 ≠ a := by
  intro d hd
  simpa [Memory.erase] using (List.mem_filter.mp hd).2

/-- The one law of a memory write: the address written reads the byte, every other address reads as before. -/
theorem Memory.read_write (m : Memory) (a : Nat) (b : Byte) (c : Nat) :
    (m.write a b).read c = if c = a then b else m.read c := by
  unfold Memory.write
  split
  · rename_i hb
    rw [Memory.read_erase, hb]
  · rw [Memory.read_insert _ _ _ (Memory.not_mem_erase m a), Memory.read_erase]
    split <;> simp_all

theorem State.readByte_writeByte (s : State) (a : Nat) (b : Byte) (c : Nat) :
    (s.writeByte a b).readByte c = if addr c = addr a then b else s.readByte c := by
  simp [State.readByte, Memory.read_write]

/-- The canonical form of a nonempty list, said once. -/
theorem Memory.wf_cons (c : Host.Cell) (m : Memory) :
    Memory.wf (c :: m) = true ↔
      c.1 < 4096 ∧ c.2 ≠ initialByte c.1 ∧ (∀ d ∈ m, c.1 < d.1) ∧ Memory.wf m = true := by
  simp [Memory.wf, and_assoc]

theorem Memory.wf_erase (m : Memory) (a : Nat) (h : m.wf = true) : (m.erase a).wf = true := by
  induction m with
  | nil => simpa [Memory.erase] using h
  | cons d m ih =>
    rw [Memory.wf_cons] at h
    obtain ⟨h1, h2, h3, h4⟩ := h
    by_cases hd : d.1 = a
    · have he : Memory.erase (d :: m) a = Memory.erase m a := by simp [Memory.erase, hd]
      rw [he]
      exact ih h4
    · have he : Memory.erase (d :: m) a = d :: Memory.erase m a := by simp [Memory.erase, hd]
      rw [he, Memory.wf_cons]
      exact ⟨h1, h2, fun x hx => h3 x (List.mem_filter.mp hx).1, ih h4⟩

theorem Memory.mem_insert (e d : Host.Cell) (m : Memory) : d ∈ Memory.insert e m ↔ d = e ∨ d ∈ m := by
  induction m with
  | nil => simp [Memory.insert]
  | cons f m ih =>
    by_cases hlt : e.1 < f.1
    · simp [Memory.insert, hlt]
    · rw [Memory.insert, if_neg hlt, List.mem_cons, ih, List.mem_cons]
      tauto

theorem Memory.wf_insert (e : Host.Cell) (m : Memory) (h : m.wf = true) (hn : ∀ d ∈ m, d.1 ≠ e.1)
    (ha : e.1 < 4096) (hb : e.2 ≠ initialByte e.1) : (Memory.insert e m).wf = true := by
  induction m with
  | nil => simp [Memory.insert, Memory.wf, ha, hb]
  | cons d m ih =>
    have hd := h
    rw [Memory.wf_cons] at h
    obtain ⟨h1, h2, h3, h4⟩ := h
    by_cases hlt : e.1 < d.1
    · rw [Memory.insert, if_pos hlt, Memory.wf_cons]
      refine ⟨ha, hb, fun x hx => ?_, hd⟩
      rcases List.mem_cons.mp hx with rfl | hx
      · exact hlt
      · exact Nat.lt_trans hlt (h3 x hx)
    · rw [Memory.insert, if_neg hlt, Memory.wf_cons]
      refine ⟨h1, h2, fun x hx => ?_, ih h4 (fun y hy => hn y (by simp [hy]))⟩
      rcases (Memory.mem_insert e x m).mp hx with rfl | hx
      · have := hn d (by simp)
        omega
      · exact h3 x hx

/-- A write inside the address space keeps the canonical form. -/
theorem Memory.wf_write (m : Memory) (a : Nat) (b : Byte) (h : m.wf = true) (ha : a < 4096) :
    (m.write a b).wf = true := by
  unfold Memory.write
  split
  · exact Memory.wf_erase m a h
  · rename_i hb
    exact Memory.wf_insert (a, b) _ (Memory.wf_erase m a h) (Memory.not_mem_erase m a) ha hb

/-- An image inside the address space keeps the canonical form. -/
theorem Memory.wf_writeAll (bs : List Byte) : ∀ (m : Memory) (a : Nat), m.wf = true → a + bs.length ≤ 4096 →
    (m.writeAll a bs).wf = true := by
  induction bs with
  | nil => intro m a h _; exact h
  | cons b bs ih =>
    intro m a h ha
    have ha' : a + (bs.length + 1) ≤ 4096 := by simpa using ha
    exact ih _ _ (Memory.wf_write m a b h (by omega)) (by omega)

/-- Consecutive bytes written: each address in their range reads its byte, every other address reads as before. -/
theorem Memory.read_writeAll (bs : List Byte) : ∀ (m : Memory) (a c : Nat),
    (m.writeAll a bs).read c = if a ≤ c ∧ c < a + bs.length then bs.getD (c - a) 0 else m.read c := by
  induction bs with
  | nil =>
    intro m a c
    rw [Memory.writeAll, if_neg (by simp only [List.length_nil]; omega)]
  | cons b bs ih =>
    intro m a c
    rw [Memory.writeAll, ih, Memory.read_write, List.length_cons]
    by_cases h : c = a
    · subst h
      rw [if_neg (by omega), if_pos rfl, if_pos (by omega), Nat.sub_self]
      rfl
    · by_cases hc : a + 1 ≤ c ∧ c < a + 1 + bs.length
      · rw [if_pos hc, if_pos (by omega), show c - a = (c - (a + 1)) + 1 by omega]
        rfl
      · rw [if_neg hc, if_neg h, if_neg (by omega)]

/-- The memory of a new session: the image from 0x200 on, the font below 0x050, zero elsewhere (R43, R220). -/
theorem startMemory_read (params : Parameters) (image : List Byte) (a : Nat) :
    (startMemory params image).read a =
      if h : a < 80 then params.font[a]
      else if 0x200 ≤ a ∧ a < 0x200 + image.length then image.getD (a - 0x200) 0 else 0 := by
  have hl : params.font.toList.length = 80 := by simp
  have hf : font.length ≤ 80 := by decide
  rw [startMemory, Memory.read_writeAll, Memory.read_writeAll, hl]
  by_cases h : a < 80
  · rw [dif_pos h, if_neg (by omega), if_pos (by omega), Nat.sub_zero]
    simp [List.getD, h]
  · rw [dif_neg h, if_neg (c := 0 ≤ a ∧ a < 0 + 80) (by omega)]
    simp only [Memory.read, initialByte, List.getD, List.getElem?_eq_none (show font.length ≤ a by omega),
      Option.getD_none]

/-- An image that fits gives a session whose memory is in canonical form. -/
theorem startMemory_wf (params : Parameters) (image : List Byte) (h : image.length ≤ 3584) :
    (startMemory params image).wf = true :=
  Memory.wf_writeAll _ _ _ (Memory.wf_writeAll _ _ _ rfl (by simp)) (by omega)

/-- Writing the reset contents over memory that lists nothing lists nothing. -/
theorem Memory.writeAll_initial (bs : List Byte) : ∀ a : Nat,
    (∀ (k : Nat) (hk : k < bs.length), bs[k] = initialByte (a + k)) → Memory.writeAll [] a bs = [] := by
  induction bs with
  | nil => exact fun _ _ => rfl
  | cons b bs ih =>
    intro a h
    have h0 : b = initialByte a := h 0 (by simp)
    rw [Memory.writeAll, Memory.write, if_pos h0]
    refine ih (a + 1) fun k hk => ?_
    have := h (k + 1) (by simpa using hk)
    rw [show a + 1 + k = a + (k + 1) by omega]
    simpa using this

/-- With the font of R39 and an empty image the memory of a new session lists nothing. -/
theorem startMemory_spec : startMemory specParameters [] = [] := by
  have hf : specParameters.font.toList = font := Vector.toList_mk.trans List.toList_toArray
  rw [startMemory, hf, Memory.writeAll]
  refine Memory.writeAll_initial font 0 fun k hk => ?_
  rw [Nat.zero_add, initialByte, List.getD, List.getElem?_eq_getElem hk, Option.getD_some]

/-- What `load` answers for an image that fits (R220). -/
theorem load_of_fits (params : Parameters) (variant : Variant) (image : List Byte) (h : image.length ≤ 3584) :
    load params variant (some image) = .next (startSession params variant image) := by
  rw [load, if_neg (by omega)]

/-- A byte of a new session. -/
theorem startSession_readByte (params : Parameters) (variant : Variant) (image : List Byte) (a : Nat) :
    (startSession params variant image).readByte a =
      if h : addr a < 80 then params.font[addr a]
      else if 0x200 ≤ addr a ∧ addr a < 0x200 + image.length then image.getD (addr a - 0x200) 0 else 0 :=
  startMemory_read params image (addr a)

/-- A data store keeps the canonical form. -/
theorem State.writeByte_wf (s : State) (a : Nat) (b : Byte) (h : s.mem.wf = true) :
    (s.writeByte a b).mem.wf = true := Memory.wf_write _ _ _ h (addr_lt a)

theorem State.reset_mem : State.reset.mem = [] := rfl

end Sys2Proof.Machine
end

