-- ==== Sys2Proof/Laws/Ops.lean ====
section
/-! SUPPORT. What each shared operation can do, said once. -/

namespace Sys2Proof.Machine

/-- The shift of the stack after its first `n` assignments. -/
theorem getElem_shiftStack_aux (st : Vector Word 12) (n k : Nat) (hn : n ≤ 11) (hk : k < 12) :
    ((List.range n).foldl (fun st k => st.setIfInBounds k ((st[k + 1]?).getD 0)) st)[k] =
      if h : k < n then st[k + 1] else st[k] := by
  induction n generalizing k with
  | zero => simp
  | succ n ih =>
    have hn1 : n + 1 < 12 := by omega
    rw [List.range_succ, List.foldl_append, List.foldl_cons, List.foldl_nil, Vector.getElem_setIfInBounds]
    by_cases hkn : n = k
    · subst hkn
      rw [if_pos rfl, dif_pos (Nat.lt_succ_self n), Vector.getElem?_eq_getElem hn1, Option.getD_some,
        ih (n + 1) (by omega) hn1, dif_neg (by omega)]
    · rw [if_neg hkn, ih k (by omega) hk]
      by_cases h : k < n
      · rw [dif_pos h, dif_pos (by omega)]
      · rw [dif_neg h, dif_neg (by omega)]

/-- Each slot below the last takes the one above it (R29). -/
theorem getElem_shiftStack (st : Vector Word 12) (k : Nat) (hk : k < 11) : (shiftStack st)[k] = st[k + 1] := by
  rw [shiftStack, getElem_shiftStack_aux st 11 k (Nat.le_refl _) (by omega), dif_pos hk]

/-- What `push` answers where it pushes without discarding. -/
theorem push_of_room (a : Word) (s : State) (h : s.sp.val < 12) :
    push a s = some { s with stack := s.stack.set s.sp.val a h, sp := ⟨s.sp.val + 1, Nat.succ_lt_succ h⟩ } := by
  simp [push, h]

theorem push_reject_full (a : Word) (s : State) (h : ¬ s.sp.val < 12) (hp : s.overflow = .reject) :
    push a s = none := by
  simp [push, h, hp]

theorem push_dropOldest_full (a : Word) (s : State) (h : ¬ s.sp.val < 12) (hp : s.overflow = .dropOldest) :
    push a s = some { s with stack := (shiftStack s.stack).setIfInBounds 11 a } := by
  simp [push, h, hp]

/-- Everything `push` can do: only the stack and its cursor change. -/
theorem push_cases {a : Word} {s t : State} (h : push a s = some t) :
    t = { s with stack := t.stack, sp := t.sp } := by
  unfold push at h
  split at h
  · cases h; rfl
  · split at h <;> cases h
    rfl

/-- Everything a call can do: it goes on, and only PC, the stack and its cursor change. -/
theorem execCall_cases (nnn : Addr12) (s : State) :
    ∃ t, execCall nnn s = .next t ∧ t = { s with pc := t.pc, stack := t.stack, sp := t.sp } := by
  refine ⟨_, rfl, ?_⟩
  split
  · rename_i h
    rw [push_cases h]
    rfl
  · rfl

/-- Everything `pop` can do. -/
theorem pop_cases {s t : State} {a : Word} (h : pop s = some (a, t)) :
    ∃ hk : s.sp.val - 1 < 12, 0 < s.sp.val ∧ a = s.stack[s.sp.val - 1]'hk ∧
      t = { s with sp := ⟨s.sp.val - 1, Nat.lt_succ_of_lt hk⟩ } := by
  unfold pop at h
  split at h
  · rename_i hp
    simp only [Option.some.injEq, Prod.mk.injEq] at h
    exact ⟨by omega, hp, h.1.symm, h.2.symm⟩
  · cases h

theorem pop_empty (s : State) (h : ¬ 0 < s.sp.val) : pop s = none := by simp [pop, h]

/-- `skipIf` changes PC alone. -/
theorem skipIf_eq (c : Bool) (s : State) : skipIf c s = s.setPc (if c then s.pc + 2 else s.pc) := by
  cases c <;> rfl

theorem skip_eq (s : State) : skip s = s.setPc (s.pc + 2) := rfl
theorem advancePc_eq (s : State) : advancePc s = s.setPc (s.pc + 2) := rfl
theorem rewindPc_eq (s : State) : rewindPc s = s.setPc (s.pc - 2) := rfl

/-- `setFlag` writes the flag register alone. -/
theorem setFlag_eq (c : Bool) (s : State) : setFlag c s = s.setV 0xF (flagByte c) := rfl

theorem getV_setFlag (c : Bool) (s : State) (z : Nibble) :
    (setFlag c s).getV z = if z = 0xF then flagByte c else s.getV z := State.getV_setV _ _ _ _

/-- The flag comes last: it overwrites the result where `x` is the flag register. -/
theorem getV_writeWithFlag (x : Nibble) (r : Byte) (c : Bool) (s : State) (z : Nibble) :
    (writeWithFlag x r c s).getV z = if z = 0xF then flagByte c else if z = x then r else s.getV z := by
  rw [writeWithFlag, getV_setFlag, State.getV_setV]

theorem writeWithFlag_eq (x : Nibble) (r : Byte) (c : Bool) (s : State) :
    writeWithFlag x r c s = { s with v := (writeWithFlag x r c s).v } := rfl

theorem getV_writeLogic (x : Nibble) (r : Byte) (s : State) (z : Nibble) :
    (writeLogic x r s).getV z =
      if z = 0xF ∧ (quirksOf s.variant).logicVF = true then 0 else if z = x then r else s.getV z := by
  unfold writeLogic
  split
  · rename_i h
    rw [getV_setFlag, State.getV_setV]
    simp [h, flagByte]
  · rename_i h
    rw [State.getV_setV]
    simp [h]

theorem writeLogic_eq (x : Nibble) (r : Byte) (s : State) :
    writeLogic x r s = { s with v := (writeLogic x r s).v } := by
  unfold writeLogic
  split <;> rfl

/-- `advanceI` changes I alone. -/
theorem advanceI_eq (x : Nibble) (s : State) : advanceI x s = { s with i := (advanceI x s).i } := by
  unfold advanceI
  split <;> rfl

theorem advanceI_mem (x : Nibble) (s : State) : (advanceI x s).mem = s.mem := by
  rw [advanceI_eq]

/-- `storeFirst` changes memory alone. -/
theorem storeFirst_eq (n : Nat) (s : State) : storeFirst n s = { s with mem := (storeFirst n s).mem } := by
  induction n with
  | zero => rfl
  | succ n ih => rw [storeFirst, ih]; rfl

theorem storeFirst_wf (n : Nat) (s : State) (h : s.mem.wf = true) : (storeFirst n s).mem.wf = true := by
  induction n with
  | zero => exact h
  | succ n ih => exact State.writeByte_wf _ _ _ ih

/-- `loadFirst` changes the registers alone. -/
theorem loadFirst_eq (n : Nat) (s : State) : loadFirst n s = { s with v := (loadFirst n s).v } := by
  induction n with
  | zero => rfl
  | succ n ih => rw [loadFirst, ih]; rfl

/-- The keys that `lowestDown` searches, from the lowest number up. -/
theorem lowestDown_some {s : State} {k : KeyCode} (h : lowestDown s = some k) : s.keyDown k = true := by
  unfold lowestDown at h
  exact List.find?_some h

theorem hostAct_eq (s : State) (a : HostAction) :
    hostAct s a = { s with dt := (hostAct s a).dt, st := (hostAct s a).st, key := (hostAct s a).key } := by
  cases a <;> rfl

/-- A batch of host actions writes the timers and the keypad alone. -/
theorem foldl_hostAct_eq (acts : List HostAction) (s : State) :
    acts.foldl hostAct s =
      { s with dt := (acts.foldl hostAct s).dt, st := (acts.foldl hostAct s).st, key := (acts.foldl hostAct s).key } := by
  induction acts generalizing s with
  | nil => rfl
  | cons a acts ih => rw [List.foldl_cons, ih, hostAct_eq s a]

/-- The host's turn writes the timers, the keypad and its own schedule alone. -/
theorem hostTurn_eq (s : State) :
    hostTurn s = { s with dt := (hostTurn s).dt, st := (hostTurn s).st, key := (hostTurn s).key,
                          schedule := s.schedule.tail } := by
  unfold hostTurn
  split
  · rename_i h
    cases s
    cases h
    rfl
  · rename_i acts rest h
    rw [foldl_hostAct_eq, h]; rfl

/-- Everything a step can do: one transition of the decoded instruction, or the no-op of an unassigned word. -/
theorem step_cases {s t : State} (h : step s = .next t) :
    (∃ i, decode (fetch (hostTurn s)) = .ok i ∧ exec i (advancePc (hostTurn s)) = .next t) ∨
      (∃ why, decode (fetch (hostTurn s)) = .error why ∧ t = advancePc (hostTurn s)) := by
  unfold step runOpcode at h
  split at h
  · rename_i i hi
    exact .inl ⟨i, hi, h⟩
  · rename_i why hw
    exact .inr ⟨why, hw, by cases h; rfl⟩

end Sys2Proof.Machine
end

