-- ==== Sys2Proof/Laws/PerInstr.lean ====
section
/-! SUPPORT. Per instruction: the slices of spec/30_encoding.md R72 of an instruction's opcode are its selectors (R76)
and its operands. -/

namespace Sys2Proof.Laws.Slices

/-- The projections of R72 that an instruction's row uses, taken of its opcode, are its selectors and its operands. -/
def Statement : Instr → Prop
  | .cls =>
    fieldH (encode .cls) = 0x0 ∧ fieldNNN (encode .cls) = 0x0E0
  | .ret =>
    fieldH (encode .ret) = 0x0 ∧ fieldNNN (encode .ret) = 0x0EE
  | .sys nnn =>
    fieldH (encode (.sys nnn)) = 0x0#4 ∧ fieldNNN (encode (.sys nnn)) = nnn
  | .jp nnn =>
    fieldH (encode (.jp nnn)) = 0x1#4 ∧ fieldNNN (encode (.jp nnn)) = nnn
  | .call nnn =>
    fieldH (encode (.call nnn)) = 0x2#4 ∧ fieldNNN (encode (.call nnn)) = nnn
  | .seImm x nn =>
    fieldH (encode (.seImm x nn)) = 0x3#4 ∧ fieldX (encode (.seImm x nn)) = x ∧ fieldNN (encode (.seImm x nn)) = nn
  | .sneImm x nn =>
    fieldH (encode (.sneImm x nn)) = 0x4#4 ∧ fieldX (encode (.sneImm x nn)) = x ∧ fieldNN (encode (.sneImm x nn)) = nn
  | .seReg x y n =>
    fieldH (encode (.seReg x y n)) = 0x5#4 ∧ fieldX (encode (.seReg x y n)) = x ∧
      fieldY (encode (.seReg x y n)) = y ∧ fieldN (encode (.seReg x y n)) = n
  | .ldImm x nn =>
    fieldH (encode (.ldImm x nn)) = 0x6#4 ∧ fieldX (encode (.ldImm x nn)) = x ∧ fieldNN (encode (.ldImm x nn)) = nn
  | .addImm x nn =>
    fieldH (encode (.addImm x nn)) = 0x7#4 ∧ fieldX (encode (.addImm x nn)) = x ∧ fieldNN (encode (.addImm x nn)) = nn
  | .ldReg x y =>
    fieldH (encode (.ldReg x y)) = 0x8#4 ∧ fieldX (encode (.ldReg x y)) = x ∧ fieldY (encode (.ldReg x y)) = y ∧
      fieldN (encode (.ldReg x y)) = 0x0#4
  | .orReg x y =>
    fieldH (encode (.orReg x y)) = 0x8#4 ∧ fieldX (encode (.orReg x y)) = x ∧ fieldY (encode (.orReg x y)) = y ∧
      fieldN (encode (.orReg x y)) = 0x1#4
  | .andReg x y =>
    fieldH (encode (.andReg x y)) = 0x8#4 ∧ fieldX (encode (.andReg x y)) = x ∧ fieldY (encode (.andReg x y)) = y ∧
      fieldN (encode (.andReg x y)) = 0x2#4
  | .xorReg x y =>
    fieldH (encode (.xorReg x y)) = 0x8#4 ∧ fieldX (encode (.xorReg x y)) = x ∧ fieldY (encode (.xorReg x y)) = y ∧
      fieldN (encode (.xorReg x y)) = 0x3#4
  | .addReg x y =>
    fieldH (encode (.addReg x y)) = 0x8#4 ∧ fieldX (encode (.addReg x y)) = x ∧ fieldY (encode (.addReg x y)) = y ∧
      fieldN (encode (.addReg x y)) = 0x4#4
  | .subReg x y =>
    fieldH (encode (.subReg x y)) = 0x8#4 ∧ fieldX (encode (.subReg x y)) = x ∧ fieldY (encode (.subReg x y)) = y ∧
      fieldN (encode (.subReg x y)) = 0x5#4
  | .shrReg x y =>
    fieldH (encode (.shrReg x y)) = 0x8#4 ∧ fieldX (encode (.shrReg x y)) = x ∧ fieldY (encode (.shrReg x y)) = y ∧
      fieldN (encode (.shrReg x y)) = 0x6#4
  | .subnReg x y =>
    fieldH (encode (.subnReg x y)) = 0x8#4 ∧ fieldX (encode (.subnReg x y)) = x ∧
      fieldY (encode (.subnReg x y)) = y ∧ fieldN (encode (.subnReg x y)) = 0x7#4
  | .shlReg x y =>
    fieldH (encode (.shlReg x y)) = 0x8#4 ∧ fieldX (encode (.shlReg x y)) = x ∧ fieldY (encode (.shlReg x y)) = y ∧
      fieldN (encode (.shlReg x y)) = 0xE#4
  | .sneReg x y n =>
    fieldH (encode (.sneReg x y n)) = 0x9#4 ∧ fieldX (encode (.sneReg x y n)) = x ∧
      fieldY (encode (.sneReg x y n)) = y ∧ fieldN (encode (.sneReg x y n)) = n
  | .ldI nnn =>
    fieldH (encode (.ldI nnn)) = 0xA#4 ∧ fieldNNN (encode (.ldI nnn)) = nnn
  | .jpV0 nnn =>
    fieldH (encode (.jpV0 nnn)) = 0xB#4 ∧ fieldNNN (encode (.jpV0 nnn)) = nnn
  | .rnd x nn =>
    fieldH (encode (.rnd x nn)) = 0xC#4 ∧ fieldX (encode (.rnd x nn)) = x ∧ fieldNN (encode (.rnd x nn)) = nn
  | .drw x y n =>
    fieldH (encode (.drw x y n)) = 0xD#4 ∧ fieldX (encode (.drw x y n)) = x ∧ fieldY (encode (.drw x y n)) = y ∧
      fieldN (encode (.drw x y n)) = n
  | .skp x =>
    fieldH (encode (.skp x)) = 0xE#4 ∧ fieldX (encode (.skp x)) = x ∧ fieldNN (encode (.skp x)) = 0x9E#8
  | .sknp x =>
    fieldH (encode (.sknp x)) = 0xE#4 ∧ fieldX (encode (.sknp x)) = x ∧ fieldNN (encode (.sknp x)) = 0xA1#8
  | .ldVxDt x =>
    fieldH (encode (.ldVxDt x)) = 0xF#4 ∧ fieldX (encode (.ldVxDt x)) = x ∧ fieldNN (encode (.ldVxDt x)) = 0x07#8
  | .ldVxK x =>
    fieldH (encode (.ldVxK x)) = 0xF#4 ∧ fieldX (encode (.ldVxK x)) = x ∧ fieldNN (encode (.ldVxK x)) = 0x0A#8
  | .ldDtVx x =>
    fieldH (encode (.ldDtVx x)) = 0xF#4 ∧ fieldX (encode (.ldDtVx x)) = x ∧ fieldNN (encode (.ldDtVx x)) = 0x15#8
  | .ldStVx x =>
    fieldH (encode (.ldStVx x)) = 0xF#4 ∧ fieldX (encode (.ldStVx x)) = x ∧ fieldNN (encode (.ldStVx x)) = 0x18#8
  | .addI x =>
    fieldH (encode (.addI x)) = 0xF#4 ∧ fieldX (encode (.addI x)) = x ∧ fieldNN (encode (.addI x)) = 0x1E#8
  | .ldF x =>
    fieldH (encode (.ldF x)) = 0xF#4 ∧ fieldX (encode (.ldF x)) = x ∧ fieldNN (encode (.ldF x)) = 0x29#8
  | .ldB x =>
    fieldH (encode (.ldB x)) = 0xF#4 ∧ fieldX (encode (.ldB x)) = x ∧ fieldNN (encode (.ldB x)) = 0x33#8
  | .storeRegs x =>
    fieldH (encode (.storeRegs x)) = 0xF#4 ∧ fieldX (encode (.storeRegs x)) = x ∧
      fieldNN (encode (.storeRegs x)) = 0x55#8
  | .loadRegs x =>
    fieldH (encode (.loadRegs x)) = 0xF#4 ∧ fieldX (encode (.loadRegs x)) = x ∧
      fieldNN (encode (.loadRegs x)) = 0x65#8

theorem cls : Statement .cls :=
  ⟨by decide, by decide⟩
theorem ret : Statement .ret :=
  ⟨by decide, by decide⟩
theorem sys (nnn : Addr12) : Statement (.sys nnn) :=
  ⟨fieldH_hnnn 0x0#4 nnn, fieldNNN_hnnn 0x0#4 nnn⟩
theorem jp (nnn : Addr12) : Statement (.jp nnn) :=
  ⟨fieldH_hnnn 0x1#4 nnn, fieldNNN_hnnn 0x1#4 nnn⟩
theorem call (nnn : Addr12) : Statement (.call nnn) :=
  ⟨fieldH_hnnn 0x2#4 nnn, fieldNNN_hnnn 0x2#4 nnn⟩
theorem seImm (x : Nibble) (nn : Byte) : Statement (.seImm x nn) :=
  ⟨fieldH_hxnn 0x3#4 x nn, fieldX_hxnn 0x3#4 x nn, fieldNN_hxnn 0x3#4 x nn⟩
theorem sneImm (x : Nibble) (nn : Byte) : Statement (.sneImm x nn) :=
  ⟨fieldH_hxnn 0x4#4 x nn, fieldX_hxnn 0x4#4 x nn, fieldNN_hxnn 0x4#4 x nn⟩
theorem seReg (x y n : Nibble) : Statement (.seReg x y n) :=
  ⟨fieldH_hxyn 0x5#4 x y n, fieldX_hxyn 0x5#4 x y n, fieldY_hxyn 0x5#4 x y n, fieldN_hxyn 0x5#4 x y n⟩
theorem ldImm (x : Nibble) (nn : Byte) : Statement (.ldImm x nn) :=
  ⟨fieldH_hxnn 0x6#4 x nn, fieldX_hxnn 0x6#4 x nn, fieldNN_hxnn 0x6#4 x nn⟩
theorem addImm (x : Nibble) (nn : Byte) : Statement (.addImm x nn) :=
  ⟨fieldH_hxnn 0x7#4 x nn, fieldX_hxnn 0x7#4 x nn, fieldNN_hxnn 0x7#4 x nn⟩
theorem ldReg (x y : Nibble) : Statement (.ldReg x y) :=
  ⟨fieldH_hxyn 0x8#4 x y 0x0#4, fieldX_hxyn 0x8#4 x y 0x0#4, fieldY_hxyn 0x8#4 x y 0x0#4, fieldN_hxyn 0x8#4 x y 0x0#4⟩
theorem orReg (x y : Nibble) : Statement (.orReg x y) :=
  ⟨fieldH_hxyn 0x8#4 x y 0x1#4, fieldX_hxyn 0x8#4 x y 0x1#4, fieldY_hxyn 0x8#4 x y 0x1#4, fieldN_hxyn 0x8#4 x y 0x1#4⟩
theorem andReg (x y : Nibble) : Statement (.andReg x y) :=
  ⟨fieldH_hxyn 0x8#4 x y 0x2#4, fieldX_hxyn 0x8#4 x y 0x2#4, fieldY_hxyn 0x8#4 x y 0x2#4, fieldN_hxyn 0x8#4 x y 0x2#4⟩
theorem xorReg (x y : Nibble) : Statement (.xorReg x y) :=
  ⟨fieldH_hxyn 0x8#4 x y 0x3#4, fieldX_hxyn 0x8#4 x y 0x3#4, fieldY_hxyn 0x8#4 x y 0x3#4, fieldN_hxyn 0x8#4 x y 0x3#4⟩
theorem addReg (x y : Nibble) : Statement (.addReg x y) :=
  ⟨fieldH_hxyn 0x8#4 x y 0x4#4, fieldX_hxyn 0x8#4 x y 0x4#4, fieldY_hxyn 0x8#4 x y 0x4#4, fieldN_hxyn 0x8#4 x y 0x4#4⟩
theorem subReg (x y : Nibble) : Statement (.subReg x y) :=
  ⟨fieldH_hxyn 0x8#4 x y 0x5#4, fieldX_hxyn 0x8#4 x y 0x5#4, fieldY_hxyn 0x8#4 x y 0x5#4, fieldN_hxyn 0x8#4 x y 0x5#4⟩
theorem shrReg (x y : Nibble) : Statement (.shrReg x y) :=
  ⟨fieldH_hxyn 0x8#4 x y 0x6#4, fieldX_hxyn 0x8#4 x y 0x6#4, fieldY_hxyn 0x8#4 x y 0x6#4, fieldN_hxyn 0x8#4 x y 0x6#4⟩
theorem subnReg (x y : Nibble) : Statement (.subnReg x y) :=
  ⟨fieldH_hxyn 0x8#4 x y 0x7#4, fieldX_hxyn 0x8#4 x y 0x7#4, fieldY_hxyn 0x8#4 x y 0x7#4, fieldN_hxyn 0x8#4 x y 0x7#4⟩
theorem shlReg (x y : Nibble) : Statement (.shlReg x y) :=
  ⟨fieldH_hxyn 0x8#4 x y 0xE#4, fieldX_hxyn 0x8#4 x y 0xE#4, fieldY_hxyn 0x8#4 x y 0xE#4, fieldN_hxyn 0x8#4 x y 0xE#4⟩
theorem sneReg (x y n : Nibble) : Statement (.sneReg x y n) :=
  ⟨fieldH_hxyn 0x9#4 x y n, fieldX_hxyn 0x9#4 x y n, fieldY_hxyn 0x9#4 x y n, fieldN_hxyn 0x9#4 x y n⟩
theorem ldI (nnn : Addr12) : Statement (.ldI nnn) :=
  ⟨fieldH_hnnn 0xA#4 nnn, fieldNNN_hnnn 0xA#4 nnn⟩
theorem jpV0 (nnn : Addr12) : Statement (.jpV0 nnn) :=
  ⟨fieldH_hnnn 0xB#4 nnn, fieldNNN_hnnn 0xB#4 nnn⟩
theorem rnd (x : Nibble) (nn : Byte) : Statement (.rnd x nn) :=
  ⟨fieldH_hxnn 0xC#4 x nn, fieldX_hxnn 0xC#4 x nn, fieldNN_hxnn 0xC#4 x nn⟩
theorem drw (x y n : Nibble) : Statement (.drw x y n) :=
  ⟨fieldH_hxyn 0xD#4 x y n, fieldX_hxyn 0xD#4 x y n, fieldY_hxyn 0xD#4 x y n, fieldN_hxyn 0xD#4 x y n⟩
theorem skp (x : Nibble) : Statement (.skp x) :=
  ⟨fieldH_hxnn 0xE#4 x 0x9E#8, fieldX_hxnn 0xE#4 x 0x9E#8, fieldNN_hxnn 0xE#4 x 0x9E#8⟩
theorem sknp (x : Nibble) : Statement (.sknp x) :=
  ⟨fieldH_hxnn 0xE#4 x 0xA1#8, fieldX_hxnn 0xE#4 x 0xA1#8, fieldNN_hxnn 0xE#4 x 0xA1#8⟩
theorem ldVxDt (x : Nibble) : Statement (.ldVxDt x) :=
  ⟨fieldH_hxnn 0xF#4 x 0x07#8, fieldX_hxnn 0xF#4 x 0x07#8, fieldNN_hxnn 0xF#4 x 0x07#8⟩
theorem ldVxK (x : Nibble) : Statement (.ldVxK x) :=
  ⟨fieldH_hxnn 0xF#4 x 0x0A#8, fieldX_hxnn 0xF#4 x 0x0A#8, fieldNN_hxnn 0xF#4 x 0x0A#8⟩
theorem ldDtVx (x : Nibble) : Statement (.ldDtVx x) :=
  ⟨fieldH_hxnn 0xF#4 x 0x15#8, fieldX_hxnn 0xF#4 x 0x15#8, fieldNN_hxnn 0xF#4 x 0x15#8⟩
theorem ldStVx (x : Nibble) : Statement (.ldStVx x) :=
  ⟨fieldH_hxnn 0xF#4 x 0x18#8, fieldX_hxnn 0xF#4 x 0x18#8, fieldNN_hxnn 0xF#4 x 0x18#8⟩
theorem addI (x : Nibble) : Statement (.addI x) :=
  ⟨fieldH_hxnn 0xF#4 x 0x1E#8, fieldX_hxnn 0xF#4 x 0x1E#8, fieldNN_hxnn 0xF#4 x 0x1E#8⟩
theorem ldF (x : Nibble) : Statement (.ldF x) :=
  ⟨fieldH_hxnn 0xF#4 x 0x29#8, fieldX_hxnn 0xF#4 x 0x29#8, fieldNN_hxnn 0xF#4 x 0x29#8⟩
theorem ldB (x : Nibble) : Statement (.ldB x) :=
  ⟨fieldH_hxnn 0xF#4 x 0x33#8, fieldX_hxnn 0xF#4 x 0x33#8, fieldNN_hxnn 0xF#4 x 0x33#8⟩
theorem storeRegs (x : Nibble) : Statement (.storeRegs x) :=
  ⟨fieldH_hxnn 0xF#4 x 0x55#8, fieldX_hxnn 0xF#4 x 0x55#8, fieldNN_hxnn 0xF#4 x 0x55#8⟩
theorem loadRegs (x : Nibble) : Statement (.loadRegs x) :=
  ⟨fieldH_hxnn 0xF#4 x 0x65#8, fieldX_hxnn 0xF#4 x 0x65#8, fieldNN_hxnn 0xF#4 x 0x65#8⟩

end Sys2Proof.Laws.Slices
end

