-- ==== Sys2Proof/Laws/Run.lean ====
section
/-! SUPPORT. Runs of the machine: a run is its first step and the rest, and it is the host's run of `core`. -/

namespace Sys2Proof.Machine

theorem runSteps_zero (s : State) : runSteps 0 s = .next s := rfl

theorem runSteps_succ_of_next {s t : State} (n : Nat) (h : step s = .next t) :
    runSteps (n + 1) s = runSteps n t := by
  rw [runSteps, h]

/-- A run that ends in a state has gone on at its first step. -/
theorem runSteps_succ_cases {s u : State} {n : Nat} (h : runSteps (n + 1) s = .next u) :
    ∃ t, step s = .next t ∧ runSteps n t = .next u := by
  rw [runSteps] at h
  split at h
  · rename_i t ht
    exact ⟨t, ht, h⟩
  · cases h
  · cases h

/-- Runs compose. -/
theorem runSteps_add {s t : State} (m n : Nat) (h : runSteps m s = .next t) :
    runSteps (m + n) s = runSteps n t := by
  induction m generalizing s with
  | zero =>
    cases h
    rw [Nat.zero_add]
  | succ m ih =>
    obtain ⟨u, hu, hr⟩ := runSteps_succ_cases h
    rw [Nat.add_right_comm, runSteps_succ_of_next (m + n) hu, ih hr]

/-- The host's run, by the outcome of its first step. -/
theorem core_run_succ (M : Host.Core) (n : Nat) (s : M.State) :
    (∀ t, M.step s = .next t → M.run (n + 1) s = M.run n t) ∧
    (∀ r, M.step s = .fault r → M.run (n + 1) s = .fault r) ∧
    (∀ r, M.step s = .refused r → M.run (n + 1) s = .refused r) := by
  refine ⟨fun t h => ?_, fun r h => ?_, fun r h => ?_⟩ <;> rw [Host.Core.run, h]

/-- The model's run is the host's. -/
theorem core_run_eq (n : Nat) : ∀ s : State, Host.Core.run Sys2Proof.core n s = runSteps n s := by
  induction n with
  | zero => exact fun _ => rfl
  | succ n ih =>
    intro s
    have h := core_run_succ Sys2Proof.core n s
    cases hs : step s with
    | next t => exact (h.1 t hs).trans ((ih t).trans (runSteps_succ_of_next n hs).symm)
    | fault e => exact (h.2.1 e hs).trans (by rw [runSteps, hs]; rfl)
    | refused e => exact (h.2.2 e hs).trans (by rw [runSteps, hs]; rfl)

end Sys2Proof.Machine
end

