-- ==== Sys2Proof/Laws/Screen.lean ====
section
/-! SUPPORT. The display laws: what toggling one pixel does, and what one sprite bit does. -/

namespace Sys2Proof.Machine

/-- Toggling a pixel inverts it and no other. -/
theorem pixel_togglePixel (d : Display) (x y px py : Nat) :
    pixel (togglePixel d x y) px py =
      if px = x ∧ py = y ∧ x < 64 ∧ y < 32 then !pixel d px py else pixel d px py := by
  unfold togglePixel
  by_cases h : y < 32 ∧ x < 64
  · rw [dif_pos h]
    unfold pixel
    by_cases hp : py < 32 ∧ px < 64
    · rw [dif_pos hp, dif_pos hp]
      by_cases hy : py = y
      · subst hy
        by_cases hx : px = x
        · subst hx
          simp [h]
        · simp [hx, Ne.symm hx]
      · simp [hy, Ne.symm hy]
    · rw [dif_neg hp, dif_neg hp]
      have : ¬(px = x ∧ py = y ∧ x < 64 ∧ y < 32) := fun ⟨h1, h2, h3, h4⟩ => hp ⟨by omega, by omega⟩
      rw [if_neg this]
  · rw [dif_neg h, if_neg (fun h' => h ⟨h'.2.2.2, h'.2.2.1⟩)]

/-- Outside the grid there is no pixel. -/
theorem pixel_outside (d : Display) (x y : Nat) (h : ¬(y < 32 ∧ x < 64)) : pixel d x y = false := by
  simp [pixel, h]

theorem pixel_off (x y : Nat) : pixel Display.off x y = false := by
  unfold pixel Display.off
  split <;> simp

/-- Two displays with the same pixels are equal. -/
theorem Display.ext_pixel (d e : Display) (h : ∀ x y, x < 64 → y < 32 → pixel d x y = pixel e x y) : d = e := by
  ext y hy x hx
  have := h x y hx hy
  simpa [pixel, hx, hy] using this

/-- One sprite bit: it toggles its own pixel where it is set and inside the grid. -/
theorem pixel_drawBit (row : Byte) (x0 y : Nat) (k : Canvas) (c px py : Nat) (hy : y < 32) :
    pixel (drawBit row x0 y k c).disp px py =
      (pixel k.disp px py ^^ decide (px = x0 + c ∧ py = y ∧ x0 + c < 64 ∧ row.getLsbD (7 - c) = true)) := by
  unfold drawBit
  split
  · rename_i h
    rw [pixel_togglePixel]
    by_cases hp : px = x0 + c ∧ py = y
    · simp [hp, h, hy]
    · have h1 : ¬(px = x0 + c ∧ py = y ∧ x0 + c < 64 ∧ y < 32) := fun h' => hp ⟨h'.1, h'.2.1⟩
      have h2 : ¬(px = x0 + c ∧ py = y ∧ x0 + c < 64 ∧ row.getLsbD (7 - c) = true) := fun h' => hp ⟨h'.1, h'.2.1⟩
      rw [if_neg h1, decide_eq_false h2, Bool.xor_false]
  · rename_i h
    have h2 : ¬(px = x0 + c ∧ py = y ∧ x0 + c < 64 ∧ row.getLsbD (7 - c) = true) := fun h' => h h'.2.2
    rw [decide_eq_false h2, Bool.xor_false]

/-- One sprite bit: it sets the collision flag where its own pixel was on, and never clears it. -/
theorem hit_drawBit (row : Byte) (x0 y : Nat) (k : Canvas) (c : Nat) :
    (drawBit row x0 y k c).hit =
      (k.hit || (decide (x0 + c < 64 ∧ row.getLsbD (7 - c) = true) && pixel k.disp (x0 + c) y)) := by
  unfold drawBit
  split
  · rename_i h; simp [h]
  · rename_i h; rw [decide_eq_false h]; simp

end Sys2Proof.Machine
end

