-- ==== Sys2Proof/Tests/Slice0.lean ====
section
/-! SUPPORT. Tests: ill-formed terms, words written out from the spec's encodings, one step per vector of
spec/95_test_vectors.md (the section stands in each comment), and for each statement with hypotheses a state and
operands that meet them. -/

namespace Sys2Proof.Tests

open Sys2Proof.Machine

/-! ### Well-formedness: each check refuses a term -/

theorem test_wf_sys_00E0 : (Instr.sys 0x0E0).wf = false := by decide
theorem test_wf_sys_00EE : (Instr.sys 0x0EE).wf = false := by decide
theorem test_wf_sys : (Instr.sys 0x0E1).wf = true := by decide

/-! ### Decoding: one word of every row of R76, and the unassigned words of R78 -/

theorem test_decode_flow :
    decode 0x00EE = .ok .ret ∧ decode 0x00E1 = .ok (.sys 0x0E1) ∧ decode 0x1234 = .ok (.jp 0x234) ∧
    decode 0x2300 = .ok (.call 0x300) ∧ decode 0x3A05 = .ok (.seImm 0xA 0x05) ∧
    decode 0x4105 = .ok (.sneImm 0x1 0x05) ∧ decode 0x5121 = .ok (.seReg 0x1 0x2 0x1) ∧
    decode 0x9120 = .ok (.sneReg 0x1 0x2 0x0) ∧ decode 0xBFFF = .ok (.jpV0 0xFFF) := by decide

theorem test_decode_immediate :
    decode 0x6105 = .ok (.ldImm 0x1 0x05) ∧ decode 0x7B02 = .ok (.addImm 0xB 0x02) ∧
    decode 0xC30F = .ok (.rnd 0x3 0x0F) := by decide

theorem test_decode_alu :
    decode 0x8120 = .ok (.ldReg 0x1 0x2) ∧ decode 0x8121 = .ok (.orReg 0x1 0x2) ∧
    decode 0x8122 = .ok (.andReg 0x1 0x2) ∧ decode 0x8123 = .ok (.xorReg 0x1 0x2) ∧
    decode 0x8AB4 = .ok (.addReg 0xA 0xB) ∧ decode 0x8AC5 = .ok (.subReg 0xA 0xC) ∧
    decode 0x8126 = .ok (.shrReg 0x1 0x2) ∧ decode 0x8127 = .ok (.subnReg 0x1 0x2) ∧
    decode 0x812E = .ok (.shlReg 0x1 0x2) := by decide

theorem test_decode_index :
    decode 0xA300 = .ok (.ldI 0x300) ∧ decode 0xF21E = .ok (.addI 0x2) ∧ decode 0xF029 = .ok (.ldF 0x0) ∧
    decode 0xFA33 = .ok (.ldB 0xA) ∧ decode 0xF255 = .ok (.storeRegs 0x2) ∧ decode 0xFF65 = .ok (.loadRegs 0xF) := by
  decide

theorem test_decode_display : decode 0x00E0 = .ok .cls ∧ decode 0xD015 = .ok (.drw 0x0 0x1 0x5) := by decide

theorem test_decode_keypad_timers :
    decode 0xE19E = .ok (.skp 0x1) ∧ decode 0xE1A1 = .ok (.sknp 0x1) ∧ decode 0xFB07 = .ok (.ldVxDt 0xB) ∧
    decode 0xF30A = .ok (.ldVxK 0x3) ∧ decode 0xFA15 = .ok (.ldDtVx 0xA) ∧ decode 0xF118 = .ok (.ldStVx 0x1) := by
  decide

/-- Section 2.1: the unassigned words. -/
theorem test_decode_unassigned :
    decode 0x8128 = .error .aluSelector ∧ decode 0x812F = .error .aluSelector ∧
    decode 0xE1FF = .error .keySelector ∧ decode 0xF1FF = .error .miscSelector ∧
    decode 0xF100 = .error .miscSelector := by decide

theorem test_decodeTableWord : decodeTableWord 16 0xD015 = some (.drw 0x0 0x1 0x5) ∧ decodeTableWord 16 0x8128 = none := by
  decide

/-! ### One step on a small state -/

/-- The state after the load of an empty image, with the parameters' values of R11. -/
def base (variant : Variant) : State := State.start specParameters variant

/-- Registers set. -/
def withV (s : State) : List (Nibble × Byte) → State
  | [] => s
  | e :: es => withV (s.setV e.1 e.2) es

/-- Bytes stored. -/
def withBytes (s : State) (a : Nat) : List Byte → State
  | [] => s
  | b :: bs => withBytes (s.writeByte a b) (a + 1) bs

/-- What one step of the word `w` at PC leaves, seen through `f`. -/
def seen {α : Type} (f : State → α) (w : Nat) (s : State) : Option α :=
  match step (s.withFetchWord 16 w) with
  | .next t => some (f t)
  | .fault _ => none
  | .refused _ => none

/-- A register and the flag register. -/
def vAndF (x : Nibble) (s : State) : Byte × Byte := (s.getV x, s.getV 0xF)

/-- Section 2.1: PC = FFF fetches MEM[FFF] and MEM[000], the font byte F0. -/
theorem test_fetch_wraps : (match step ({ base .baseline with pc := 0xFFF }.writeByte 0xFFF 0x12) with
    | .next t => some t.pc | _ => none) = some 0x2F0 := by decide
/-- Section 2.1: an odd PC fetches like any other. -/
theorem test_fetch_odd : seen State.pc 0x1234 { base .baseline with pc := 0x201 } = some 0x234 := by decide
/-- Section 2.1: an unassigned word. -/
theorem test_unassigned : seen (fun t => (t.pc, t.getV 1)) 0x8128 (withV (base .baseline) [(1, 7)]) = some (0x202, 7) := by decide
/-- R91's example. -/
theorem test_sys : seen State.pc 0x0123 (base .baseline) = some 0x202 := by decide
/-- Section 2.2. -/
theorem test_jp : seen State.pc 0x1200 (base .baseline) = some 0x200 := by decide
theorem test_call : seen (fun t => (t.pc, t.sp, t.stack[0])) 0x2300 { base .baseline with pc := 0x204 } =
    some (0x300, 1, 0x206) := by decide
theorem test_call_full : seen (fun t => (t.pc, t.sp, t.stack[11])) 0x2400 { base .baseline with pc := 0x300, sp := 12 } =
    some (0x302, 12, 0) := by decide
theorem test_call_full_dropOldest : seen (fun t => (t.pc, t.sp, t.stack[0], t.stack[11])) 0x2400
    { base .baseline with pc := 0x300, sp := 12, overflow := .dropOldest,
                          stack := (base .baseline).stack.set 1 0x206 } = some (0x400, 12, 0x206, 0x302) := by decide
theorem test_ret : seen (fun t => (t.pc, t.sp)) 0x00EE
    { base .baseline with pc := 0x302, sp := 1, stack := (base .baseline).stack.set 0 0x206 } = some (0x206, 0) := by decide
theorem test_ret_empty : seen (fun t => (t.pc, t.sp)) 0x00EE { base .baseline with pc := 0x302 } = some (0x304, 0) := by decide
theorem test_seImm_taken_at_top : seen State.pc 0x3F00 { base .baseline with pc := 0xFFE } = some 0x1002 := by decide
theorem test_seImm_not_taken : seen State.pc 0x3A05 (withV (base .baseline) [(0xA, 6)]) = some 0x202 := by decide
theorem test_sneImm : seen State.pc 0x4A05 (withV (base .baseline) [(0xA, 6)]) = some 0x204 := by decide
theorem test_seReg_low_nibble : seen State.pc 0x5121 (withV (base .baseline) [(1, 0x33), (2, 0x33)]) = some 0x204 := by decide
theorem test_sneReg : seen State.pc 0x9120 (withV (base .baseline) [(1, 0x33), (2, 0x34)]) = some 0x204 := by decide
theorem test_jpV0 : seen State.pc 0xBFFF (withV (base .extended) [(0, 2)]) = some 0x1001 := by decide
/-- Section 2.3. -/
theorem test_ldImm : seen (State.getV · 0xF) 0x6FAA (base .baseline) = some 0xAA := by decide
theorem test_addImm_no_carry : seen (vAndF 0xA) 0x7A01 (withV (base .baseline) [(0xA, 0xFF), (0xF, 0x55)]) =
    some (0x00, 0x55) := by decide
theorem test_rnd_spends_a_draw : seen State.draws 0xC30F (base .baseline) = some 1 := by decide
/-- Section 2.4. -/
theorem test_ldReg : seen (vAndF 1) 0x8120 (withV (base .baseline) [(1, 0x12), (2, 0x34), (0xF, 0x55)]) =
    some (0x34, 0x55) := by decide
theorem test_or_flag_register : seen (State.getV · 0xF) 0x8F11 (withV (base .baseline) [(0xF, 0x0C), (1, 3)]) = some 0 := by decide
theorem test_or_extended : seen (vAndF 1) 0x8121 (withV (base .extended) [(1, 0xF0), (2, 0x0F), (0xF, 0x55)]) =
    some (0xFF, 0x55) := by decide
theorem test_and : seen (vAndF 1) 0x8122 (withV (base .baseline) [(1, 0xF0), (2, 0x3C), (0xF, 0x55)]) =
    some (0x30, 0) := by decide
theorem test_xor : seen (vAndF 1) 0x8123 (withV (base .extended) [(1, 0xF0), (2, 0x3C), (0xF, 0x55)]) =
    some (0xCC, 0x55) := by decide
theorem test_add_carry : seen (vAndF 1) 0x8124 (withV (base .baseline) [(1, 0xFF), (2, 0xFF)]) = some (0xFE, 1) := by decide
theorem test_add_flag_register : seen (State.getV · 0xF) 0x8F14 (withV (base .baseline) [(0xF, 0x10), (1, 1)]) = some 0 := by decide
theorem test_sub_borrow : seen (vAndF 1) 0x8125 (withV (base .baseline) [(1, 3), (2, 5)]) = some (0xFE, 0) := by decide
theorem test_sub_equal : seen (vAndF 1) 0x8125 (withV (base .baseline) [(1, 5), (2, 5)]) = some (0, 1) := by decide
theorem test_shr_baseline : seen (vAndF 1) 0x8126 (withV (base .baseline) [(1, 0xFF), (2, 5)]) = some (2, 1) := by decide
theorem test_shr_extended : seen (vAndF 1) 0x8126 (withV (base .extended) [(1, 4), (2, 3)]) = some (2, 0) := by decide
theorem test_subn : seen (vAndF 1) 0x8127 (withV (base .baseline) [(1, 5), (2, 3)]) = some (0xFE, 0) := by decide
theorem test_subn_flag_register : seen (State.getV · 0xF) 0x8F17 (withV (base .baseline) [(0xF, 1), (1, 3)]) = some 1 := by decide
theorem test_shl_baseline : seen (vAndF 1) 0x812E (withV (base .baseline) [(1, 0x80), (2, 0x40)]) = some (0x80, 0) := by decide
theorem test_shl_extended : seen (vAndF 1) 0x812E (withV (base .extended) [(1, 0xFF), (2, 0)]) = some (0xFE, 1) := by decide
/-- Section 2.5. -/
theorem test_ldI : seen State.i 0xA123 { base .baseline with i := 0xFFFF } = some 0x123 := by decide
theorem test_addI_no_flag : seen (fun t => (t.i, t.getV 0xF)) 0xF21E
    { withV (base .baseline) [(2, 2), (0xF, 0x55)] with i := 0xFFF } = some (0x1001, 0x55) := by decide
theorem test_addI_wraps : seen State.i 0xF21E { withV (base .baseline) [(2, 1)] with i := 0xFFFF } = some 0 := by decide
theorem test_ldF : seen State.i 0xF029 (withV (base .baseline) [(0, 0xFF)]) = some 0x4FB := by decide
theorem test_ldB : seen (fun t => (t.readByte 0x300, t.readByte 0x301, t.readByte 0x302)) 0xFA33
    { withV (base .baseline) [(0xA, 0x7B)] with i := 0x300 } = some (1, 2, 3) := by decide
theorem test_ldB_wraps : seen (fun t => (t.readByte 0xFFE, t.readByte 0xFFF, t.readByte 0x000)) 0xFA33
    { withV (base .baseline) [(0xA, 0x64)] with i := 0xFFE } = some (1, 0, 0) := by decide
theorem test_storeRegs_wraps : seen (fun t => (t.readByte 0xFFF, t.readByte 0x000, t.readByte 0x001, t.i)) 0xF355
    { withV (base .baseline) [(0, 0x11), (1, 0x22), (2, 0x33), (3, 0x44)] with i := 0xFFE } =
    some (0x22, 0x33, 0x44, 0x1002) := by decide
theorem test_storeRegs_extended : seen (fun t => (t.readByte 0x302, t.i)) 0xF255
    { withV (base .extended) [(2, 0x0C)] with i := 0x300 } = some (0x0C, 0x300) := by decide
theorem test_loadRegs : seen (fun t => (t.getV 0, t.getV 2, t.getV 3, t.i)) 0xF265
    { withBytes (base .baseline) 0x300 [1, 2, 3, 4] with i := 0x300 } = some (1, 3, 0, 0x303) := by decide
theorem test_loadRegs_extended : seen (fun t => (t.getV 0xF, t.i)) 0xFF65
    { withBytes (base .extended) 0x30E [0xE, 0xF] with i := 0x300 } = some (0xF, 0x300) := by decide
/-- Section 2.6. -/
theorem test_cls : seen (fun t => (pixel t.disp 3 2, t.getV 0xF)) 0x00E0
    { withV (base .baseline) [(0xF, 0x55)] with disp := togglePixel Display.off 3 2 } = some (false, 0x55) := by decide
theorem test_drw_clips_right : seen (fun t => (pixel t.disp 62 0, pixel t.disp 63 0, pixel t.disp 0 0, t.getV 0xF)) 0xD011
    { withV (withBytes (base .baseline) 0x300 [0xFF]) [(0, 0x3E), (0xF, 0x55)] with i := 0x300 } =
    some (true, true, false, 0) := by decide
theorem test_drw_collides_in_second_row : seen (fun t => (pixel t.disp 0 0, pixel t.disp 0 1, t.getV 0xF)) 0xD012
    { withBytes (base .baseline) 0x300 [0x80, 0x80] with i := 0x300, disp := togglePixel Display.off 0 1 } =
    some (true, false, 1) := by decide
/-- Section 2.7. -/
theorem test_skp_masks : seen State.pc 0xE19E (setKey 7 true (withV (base .baseline) [(1, 0x17)])) = some 0x204 := by decide
theorem test_sknp : seen State.pc 0xE1A1 (setKey 5 true (withV (base .baseline) [(1, 5)])) = some 0x202 := by decide
theorem test_ldVxK_lowest : seen (fun t => (t.pc, t.waitKey)) 0xF30A (setKey 9 true (setKey 2 true (base .baseline))) =
    some (0x200, some 2) := by decide
theorem test_ldVxK_release : seen (fun t => (t.pc, t.waitKey, t.getV 3)) 0xF30A
    { setKey 9 true (base .baseline) with waitKey := some 2 } = some (0x202, none, 2) := by decide
theorem test_ldVxDt : seen (State.getV · 5) 0xF507 { base .baseline with dt := 0x3C } = some 0x3C := by decide
theorem test_ldDtVx : seen State.dt 0xF515 (withV (base .baseline) [(5, 0xFF)]) = some 0xFF := by decide
theorem test_ldStVx_tone : seen (fun t => (t.st, tone t)) 0xF518 (withV (base .baseline) [(5, 1)]) = some (1, true) := by decide
theorem test_tick : ((tick { base .baseline with dt := 0xFF, st := 1 }).dt, tone (tick { base .baseline with st := 1 }),
    (tick (base .baseline)).dt) = (0xFE, false, 0) := by decide
/-- Section 2.7, a tick during an `FX0A` stall, as the schedule's next turn. -/
theorem test_tick_during_wait : seen (fun t => (t.dt, t.pc, t.schedule)) 0xF30A
    { base .baseline with dt := 2, schedule := [[.tick], []] } = some (1, 0x200, [[]]) := by decide
/-- R207 with IPF = 2 and IPF = 0. -/
theorem test_referenceSchedule :
    referenceSchedule 2 [] [[], [(7, true)]] = [[], [], [.tick], [], [.tick, .setKey 7 true]] ∧
    referenceSchedule 0 [] [[], []] = [[.tick, .tick]] := by decide
/-- Section 2.8, the image of section 1.1. -/
theorem test_load : (match load specParameters .extended (some [0x00, 0xE0, 0x60, 0x05]) with
    | .next t => some (t.readByte 0x201, t.readByte 0x203, t.readByte 0x204, t.readByte 0x04F, t.pc, t.variant)
    | _ => none) = some (0xE0, 0x05, 0, 0x80, 0x200, .extended) := by
  rw [load_of_fits _ _ _ (by decide)]
  simp only [startSession_readByte]
  decide
theorem test_load_parameters :
    (match load { specParameters with font := Vector.replicate 80 0x7E, stackOverflowPolicy := .dropOldest } .baseline
        (some [0x12]) with
    | .next t => some (t.readByte 0x04F, t.readByte 0x050, t.readByte 0x200, t.overflow)
    | _ => none) = some (0x7E, 0, 0x12, .dropOldest) := by
  rw [load_of_fits _ _ _ (by decide)]
  simp only [startSession_readByte]
  decide
theorem test_load_unreadable : (match load specParameters .baseline none with | .fault e => some e | _ => none) =
    some .imageUnreadable := by decide
theorem test_reset_wf : State.reset.mem.wf = true := by decide

/-! ### Witnesses: for each statement with hypotheses, a state and operands that meet them, at the bounds of each clause -/

theorem witness_DecodeOfEncode : (Instr.sys 0x0E1).wf = true ∧ (Instr.drw 0xF 0xF 0xF).wf = true := by decide
theorem witness_EncodeOfDecode : decode 0xFF65 = .ok (.loadRegs 0xF) := by decide
theorem witness_UnassignedWordsAreNoOps :
    fetch ((base .extended).withFetchWord 16 0x8128) = 0x8128 ∧ fieldN 0x8128 = 0x8 ∧
    fetch ((base .extended).withFetchWord 16 0xE09D) = 0xE09D ∧ fieldNN 0xE09D = 0x9D ∧
    fetch ((base .extended).withFetchWord 16 0xFF66) = 0xFF66 ∧ fieldNN 0xFF66 = 0x66 ∧
    fetch (base .extended) = 0x0000 ∧ fieldH 0x0000 = 0x0 := by decide
theorem witness_StepRunsDecodedInstruction :
    decode (opcodeOf (((base .baseline).withFetchWord 16 0xD015).readByte 0x200)
      (((base .baseline).withFetchWord 16 0xD015).readByte 0x201)) = .ok (.drw 0 1 5) := by decide
theorem witness_StepKeepsMemoryCanonical :
    (((base .baseline).withFetchWord 16 0xF055).Inv) ∧
    ∃ t, step ((base .baseline).withFetchWord 16 0xF055) = .next t := ⟨by decide, _, rfl⟩
theorem witness_ResetAndLoadGiveCanonicalMemory : ∃ s, load specParameters .extendedStream (some [0x12, 0x00]) = .next s := ⟨_, rfl⟩
theorem witness_ReachableMemoryIsCanonical : Reachable State.reset :=  by
  refine .load specParameters .baseline (some []) _ ?_
  rw [load_of_fits _ _ _ (by decide), startSession, startMemory_spec]
  rfl
theorem witness_ReferenceScheduleIsTheFrameLoop : State.reset.schedule = [] := rfl
theorem witness_LoadCreatesTheSessionOrFails :
    3584 < (List.replicate 3585 (0 : Byte)).length ∧ (List.replicate 3584 (0 : Byte)).length ≤ 3584 ∧
    ([] : List Byte).length ≤ 3584 := by
  rw [List.length_replicate, List.length_replicate]
  exact ⟨by decide, by decide, by decide⟩
theorem witness_StoredByteIsReadAndFetched :
    0x1200 % 4096 = (base .baseline).pc.toNat % 4096 ∧
    0x000 % 4096 = ({ base .baseline with pc := 0xFFF }.pc.toNat + 1) % 4096 := by decide
theorem witness_SysDoesNothing : (0x0E1 : Addr12) ≠ 0x0E0 ∧ (0x0E1 : Addr12) ≠ 0x0EE := by decide
theorem witness_CallPushesAndJumps : { base .baseline with sp := 11 }.sp.val < 12 ∧ (base .baseline).sp.val < 12 := by decide
theorem witness_CallOnFullStack :
    { base .baseline with sp := 12 }.sp.val = 12 ∧ { base .baseline with sp := 12 }.overflow = .reject ∧
    { base .baseline with sp := 12, overflow := .dropOldest }.sp.val = 12 ∧
    { base .baseline with sp := 12, overflow := .dropOldest }.overflow = .dropOldest := by decide
theorem witness_ReturnPopsIntoPc : 0 < { base .baseline with sp := 1 }.sp.val ∧ 0 < { base .baseline with sp := 12 }.sp.val := by
  decide
theorem witness_ReturnOnEmptyStackIsNoOp : (base .baseline).sp.val = 0 := by decide
theorem witness_ReturnUndoesCall : { base .extended with sp := 11 }.sp.val < 12 := by decide
theorem witness_RandomAnd_zero_mask : (0x00 : Byte) = 0 := by decide
theorem witness_DrawSetsTheCollisionFlag :
    (∃ t, exec (.drw 0 1 1) { base .baseline with disp := togglePixel Display.off 0 0 } = .next t) ∧
    spriteCovers { base .baseline with disp := togglePixel Display.off 0 0 } 0 1 1 0 0 = true ∧
    pixel (togglePixel Display.off 0 0) 0 0 = true ∧
    (∀ px py, spriteCovers (base .baseline) 0 1 0 px py = true → pixel Display.off px py = false) :=
  ⟨⟨_, rfl⟩, by decide, by decide, fun px py _ => by
    unfold pixel Display.off
    split <;> simp⟩
theorem witness_DrawTwiceRestoresTheDisplay : (0xE : Nibble) ≠ 0xF ∧ (0x0 : Nibble) ≠ 0xF := by decide
theorem witness_WaitForKey_idle : (base .baseline).waitKey = none ∧ ∀ k, (base .baseline).keyDown k = false := by decide
theorem witness_WaitForKey_press : (setKey 0xF true (base .baseline)).waitKey = none ∧
    (setKey 0xF true (base .baseline)).keyDown 0xF = true ∧
    ∀ j : KeyCode, j.toNat < (0xF : KeyCode).toNat → (setKey 0xF true (base .baseline)).keyDown j = false := by decide
theorem witness_WaitForKey_held : { setKey 0 true (base .baseline) with waitKey := some 0 }.waitKey = some 0 ∧
    { setKey 0 true (base .baseline) with waitKey := some 0 }.keyDown 0 = true := by decide
theorem witness_WaitForKey_release : { base .baseline with waitKey := some 0xF }.waitKey = some 0xF ∧
    { base .baseline with waitKey := some 0xF }.keyDown 0xF = false := by decide
theorem witness_WaitStallsWithoutAKey :
    decode (fetch ((base .baseline).withFetchWord 16 0xF30A)) = .ok (.ldVxK 3) ∧
    ((base .baseline).withFetchWord 16 0xF30A).schedule = [] ∧
    ((base .baseline).withFetchWord 16 0xF30A).waitKey = none ∧
    ∀ k, ((base .baseline).withFetchWord 16 0xF30A).keyDown k = false := by decide
/-- The state of program P5 when the host presses and then releases key 7. -/
def pressing : State := { (base .baseline).withFetchWord 16 0xF30A with schedule := [[.setKey 7 true], [.setKey 7 false]] }
theorem witness_PressAndReleaseCompleteTheWait :
    decode (fetch pressing) = .ok (.ldVxK 3) ∧ pressing.schedule = [.setKey 7 true] :: [.setKey 7 false] :: [] ∧
    pressing.waitKey = none ∧ ∀ j, pressing.keyDown j = false := by decide
theorem witness_DelayTimerSet :
    ∃ t, exec (.ldDtVx 5) (withV (base .baseline) [(5, 1)]) = .next t ∧ (withV (base .baseline) [(5, 1)]).dt.toNat < t.dt.toNat :=
  ⟨_, rfl, by decide⟩
theorem witness_SetKeyWritesOneKey : ∃ t, exec .cls (base .baseline) = .next t := ⟨_, rfl⟩
theorem witness_WritersOfRegisters :
    ∃ t, exec (.ldImm 0xF 1) (base .baseline) = .next t ∧ t.getV 0xF ≠ (base .baseline).getV 0xF := ⟨_, rfl, by decide⟩
theorem witness_WritersOfTheOtherElements_control :
    (∃ t, exec (.ldI 1) (base .baseline) = .next t ∧ t.i ≠ (base .baseline).i) ∧
    (∃ t, exec (.call 1) (base .baseline) = .next t ∧ t.sp ≠ (base .baseline).sp ∧ t.stack ≠ (base .baseline).stack) ∧
    (∃ t, exec (.ldVxK 1) (setKey 1 true (base .baseline)) = .next t ∧ t.waitKey ≠ (setKey 1 true (base .baseline)).waitKey) ∧
    (∃ t, exec (.rnd 1 1) (base .baseline) = .next t ∧ t.draws ≠ (base .baseline).draws) :=
  ⟨⟨_, rfl, by decide⟩, ⟨_, rfl, by decide⟩, ⟨_, rfl, by decide⟩, ⟨_, rfl, by decide⟩⟩
theorem witness_WritersOfTheOtherElements_timers_memory_display :
    (∃ t, exec (.ldDtVx 5) (withV (base .baseline) [(5, 1)]) = .next t ∧ t.dt ≠ (withV (base .baseline) [(5, 1)]).dt) ∧
    (∃ t, exec (.ldStVx 5) (withV (base .baseline) [(5, 1)]) = .next t ∧ t.st ≠ (withV (base .baseline) [(5, 1)]).st) ∧
    (∃ t, exec (.ldB 0) (base .baseline) = .next t ∧ ∃ a, t.readByte a ≠ (base .baseline).readByte a) ∧
    (∃ t, exec (.drw 0 0 1) (base .baseline) = .next t ∧ t.disp ≠ (base .baseline).disp) :=
  ⟨⟨_, rfl, by decide⟩, ⟨_, rfl, by decide⟩, ⟨_, rfl, 0, by decide⟩, ⟨_, rfl, by decide⟩⟩
theorem witness_VariantIsFixedForTheSession : ∃ t, runSteps 1 (base .extended) = .next t := ⟨_, rfl⟩
theorem witness_PcAdvancesByTwo :
    (∃ t, step { base .baseline with pc := 0xFFFE } = .next t) ∧
    decode (fetch { base .baseline with pc := 0xFFFE }) = .ok (.sys 0x000) ∧ maySetPc (.sys 0x000) = false ∧
    decode (fetch ((base .baseline).withFetchWord 16 0xE000)) = .error .keySelector :=
  ⟨⟨_, rfl⟩, by decide, by decide, by decide⟩
theorem witness_VariantChangesOnlySevenOpcodes : dependsOnVariant (.drw 0xF 0xF 0xF) = false := by decide

end Sys2Proof.Tests
end

section
/-! PROOFS. What `load` answers for every image and source (R220, R221), and the fields of the session it creates. -/

namespace Sys2Proof.Machine

theorem load_of_unreadable (params : Parameters) (variant : Variant) :
    load params variant none = .fault .imageUnreadable := rfl

theorem load_of_tooLong (params : Parameters) (variant : Variant) (image : List Byte) (h : 3584 < image.length) :
    load params variant (some image) = .fault .imageTooLarge := by
  rw [load, if_pos (by omega)]

/-- With `INIT_REGS_ZERO` a new session differs from the reset state in its memory, variant and policy only (R43). -/
theorem startSession_of_initRegsZero (params : Parameters) (variant : Variant) (image : List Byte)
    (h : params.initRegsZero = true) :
    startSession params variant image =
      { State.reset with mem := (startSession params variant image).mem, variant := variant,
                         overflow := params.stackOverflowPolicy } := by
  rw [startSession, State.start, h]
  rfl

/-- Without `INIT_REGS_ZERO` the free draws for V, DT, ST and DISP come on top of that (R43, D11, log 13). -/
theorem startSession_of_not_initRegsZero (params : Parameters) (variant : Variant) (image : List Byte)
    (h : params.initRegsZero = false) :
    startSession params variant image =
      { State.reset with mem := (startSession params variant image).mem, variant := variant,
                         overflow := params.stackOverflowPolicy, v := Config.powerOn.v, dt := Config.powerOn.dt,
                         st := Config.powerOn.st, disp := Config.powerOn.disp } := by
  rw [startSession, State.start, h]
  rfl

/-- Below 4096 an address is its own reduction, so a new session's bytes are those that `startMemory` placed there. -/
theorem startSession_readByte_of_lt (params : Parameters) (variant : Variant) (image : List Byte) (a : Nat)
    (ha : a < 4096) :
    (startSession params variant image).readByte a =
      if h : a < 80 then params.font[a]
      else if 0x200 ≤ a ∧ a < 0x200 + image.length then image.getD (a - 0x200) 0 else 0 := by
  have haddr : addr a = a := Nat.mod_eq_of_lt ha
  simp only [startSession_readByte, haddr]

/-- Settles O12: `load` answers by the length of the image, and an image that fits gives `startSession`, whose fields
depend on `INIT_REGS_ZERO` and whose bytes on the font and the image. -/
theorem loadCreatesTheSessionOrFails : Obligations.LoadCreatesTheSessionOrFails := by
  intro params variant
  refine ⟨load_of_unreadable params variant, fun image => ⟨load_of_tooLong params variant image, fun hfit => ?_⟩⟩
  refine ⟨startSession params variant image, load_of_fits params variant image hfit, ?_,
    startSession_readByte_of_lt params variant image⟩
  cases hzero : params.initRegsZero with
  | true => exact startSession_of_initRegsZero params variant image hzero
  | false => exact startSession_of_not_initRegsZero params variant image hzero

end Sys2Proof.Machine
end

section
/-! PROOFS. What an instruction can do to the state, said once: the elements it writes, with the writers of V and I
as R23 and R27 name them. The statements of spec/10_state.md about writers, PC and the session follow from it. -/

namespace Sys2Proof.Machine

/-- The register file `v` differs from that of `s` only where R23 lets `i` write. -/
def WritesVOf (s : State) (i : Instr) (v : Vector Byte 16) : Prop :=
  ∀ z, { s with v := v }.getV z ≠ s.getV z → mayWriteV s.variant i z = true

/-- The next states an instruction can have: each constructor names the elements written, and everything else is as in
`s`. -/
inductive ExecEffect (s : State) : Instr → State → Prop
  | sys (nnn : Addr12) : ExecEffect s (.sys nnn) s
  | pc {i : Instr} (a : Word) (hi : maySetPc i = true) : ExecEffect s i { s with pc := a }
  | call (nnn : Addr12) (a : Word) (st : Vector Word 12) (sp : Fin 13) :
      ExecEffect s (.call nnn) { s with pc := a, stack := st, sp := sp }
  | ret (a : Word) (sp : Fin 13) : ExecEffect s .ret { s with pc := a, sp := sp }
  | registers {i : Instr} (v : Vector Byte 16) (hv : WritesVOf s i v) : ExecEffect s i { s with v := v }
  | rnd (x : Nibble) (nn : Byte) (v : Vector Byte 16) (d : Nat) (hv : WritesVOf s (.rnd x nn) v) :
      ExecEffect s (.rnd x nn) { s with v := v, draws := d }
  | cls (d : Display) : ExecEffect s .cls { s with disp := d }
  | drw (x y n : Nibble) (v : Vector Byte 16) (d : Display) (hv : WritesVOf s (.drw x y n) v) :
      ExecEffect s (.drw x y n) { s with v := v, disp := d }
  | index {i : Instr} (a : Word) (hi : mayWriteI s.variant i = true) : ExecEffect s i { s with i := a }
  | ldVxK (x : Nibble) (v : Vector Byte 16) (a : Word) (k : Option KeyCode) (hv : WritesVOf s (.ldVxK x) v) :
      ExecEffect s (.ldVxK x) { s with v := v, pc := a, waitKey := k }
  | ldDtVx (x : Nibble) (b : Byte) : ExecEffect s (.ldDtVx x) { s with dt := b }
  | ldStVx (x : Nibble) (b : Byte) : ExecEffect s (.ldStVx x) { s with st := b }
  | ldB (x : Nibble) (m : Memory) : ExecEffect s (.ldB x) { s with mem := m }
  | storeRegs (x : Nibble) (m : Memory) (a : Word) (ha : a ≠ s.i → mayWriteI s.variant (.storeRegs x) = true) :
      ExecEffect s (.storeRegs x) { s with mem := m, i := a }
  | loadRegs (x : Nibble) (v : Vector Byte 16) (a : Word) (hv : WritesVOf s (.loadRegs x) v)
      (ha : a ≠ s.i → mayWriteI s.variant (.loadRegs x) = true) :
      ExecEffect s (.loadRegs x) { s with v := v, i := a }

/-! ### The register files that the shared operations leave -/

theorem writesVOf_refl (s : State) (i : Instr) : WritesVOf s i s.v := fun _ hz => absurd rfl hz

theorem writesVOf_setV {s : State} {i : Instr} {x : Nibble} (hx : mayWriteV s.variant i x = true) (b : Byte) :
    WritesVOf s i (s.setV x b).v := by
  intro z hz
  by_cases h : z = x
  · rw [h, hx]
  · exact absurd (State.getV_setV_other s x z b h) hz

theorem writesVOf_writeWithFlag {s : State} {i : Instr} {x : Nibble} (hx : mayWriteV s.variant i x = true)
    (hf : mayWriteV s.variant i 0xF = true) (r : Byte) (c : Bool) : WritesVOf s i (writeWithFlag x r c s).v := by
  intro z hz
  by_cases hzf : z = 0xF
  · rw [hzf, hf]
  · by_cases hzx : z = x
    · rw [hzx, hx]
    · exact absurd ((getV_writeWithFlag x r c s z).trans (by rw [if_neg hzf, if_neg hzx])) hz

theorem writesVOf_writeLogic {s : State} {i : Instr} {x : Nibble} (hx : mayWriteV s.variant i x = true)
    (hf : (quirksOf s.variant).logicVF = true → mayWriteV s.variant i 0xF = true) (r : Byte) :
    WritesVOf s i (writeLogic x r s).v := by
  intro z hz
  by_cases hzf : z = 0xF ∧ (quirksOf s.variant).logicVF = true
  · rw [hzf.1, hf hzf.2]
  · by_cases hzx : z = x
    · rw [hzx, hx]
    · exact absurd ((getV_writeLogic x r s z).trans (by rw [if_neg hzf, if_neg hzx])) hz

/-- `loadFirst n` writes no register from `n` on. -/
theorem getV_loadFirst_of_le (n : Nat) (s : State) (z : Nibble) (h : n ≤ z.toNat) :
    (loadFirst n s).getV z = s.getV z := by
  induction n with
  | zero => rfl
  | succ n ih =>
    have hz : z ≠ BitVec.ofNat 4 n := by
      rintro rfl
      have := Nat.mod_le n (2 ^ 4)
      rw [BitVec.toNat_ofNat] at h
      omega
    rw [loadFirst, State.getV_setV_other _ _ _ _ hz, ih (by omega)]

theorem writesVOf_loadFirst (x : Nibble) (s : State) :
    WritesVOf s (.loadRegs x) (loadFirst (x.toNat + 1) s).v := by
  intro z hz
  refine decide_eq_true (Nat.le_of_not_lt fun hlt => ?_)
  exact hz (getV_loadFirst_of_le (x.toNat + 1) s z hlt)

/-- `advanceI` moves I only under the quirk (R12). -/
theorem incI_of_advanceI_ne {x : Nibble} {s : State} (h : (advanceI x s).i ≠ s.i) :
    (quirksOf s.variant).incI = true := by
  by_contra hq
  exact h (by rw [advanceI, if_neg hq])

/-! ### The effect of each shape of instruction -/

theorem execEffect_skipIf {i : Instr} (hi : maySetPc i = true) (c : Bool) (s : State) :
    ExecEffect s i (skipIf c s) := by
  rw [skipIf_eq]
  exact .pc _ hi

theorem execEffect_setV {s : State} {i : Instr} {x : Nibble} (hx : mayWriteV s.variant i x = true) (b : Byte) :
    ExecEffect s i (s.setV x b) := .registers _ (writesVOf_setV hx b)

theorem execEffect_writeWithFlag {s : State} {i : Instr} {x : Nibble} (hx : mayWriteV s.variant i x = true)
    (hf : mayWriteV s.variant i 0xF = true) (r : Byte) (c : Bool) : ExecEffect s i (writeWithFlag x r c s) :=
  .registers _ (writesVOf_writeWithFlag hx hf r c)

theorem execEffect_writeLogic {s : State} {i : Instr} {x : Nibble} (hx : mayWriteV s.variant i x = true)
    (hf : (quirksOf s.variant).logicVF = true → mayWriteV s.variant i 0xF = true) (r : Byte) :
    ExecEffect s i (writeLogic x r s) := by
  rw [writeLogic_eq]
  exact .registers _ (writesVOf_writeLogic hx hf r)

theorem execRet_effect (s : State) : ∃ t, execRet s = .next t ∧ ExecEffect s .ret t := by
  unfold execRet
  split
  · rename_i a t hp
    obtain ⟨_, _, _, rfl⟩ := pop_cases hp
    exact ⟨_, rfl, .ret a _⟩
  · exact ⟨s, rfl, .ret s.pc s.sp⟩

theorem execCall_effect (nnn : Addr12) (s : State) :
    ∃ t, execCall nnn s = .next t ∧ ExecEffect s (.call nnn) t := by
  obtain ⟨t, ht, hframe⟩ := execCall_cases nnn s
  refine ⟨t, ht, ?_⟩
  rw [hframe]
  exact .call nnn _ _ _

/-- The wait for a key: the press, the stall without a press, the stall while the key is down, and the release (R173). -/
theorem execLdVxK_effect (x : Nibble) (s : State) :
    ∃ t, execLdVxK x s = .next t ∧ ExecEffect s (.ldVxK x) t := by
  unfold execLdVxK
  split
  · split
    · exact ⟨_, rfl, .ldVxK x s.v _ _ (writesVOf_refl _ _)⟩
    · exact ⟨_, rfl, .ldVxK x s.v _ s.waitKey (writesVOf_refl _ _)⟩
  · split
    · exact ⟨_, rfl, .ldVxK x s.v _ s.waitKey (writesVOf_refl _ _)⟩
    · exact ⟨_, rfl, .ldVxK x _ s.pc none (writesVOf_setV (x := x) (by simp [mayWriteV]) _)⟩

theorem execEffect_storeRegs (x : Nibble) (s : State) :
    ExecEffect s (.storeRegs x) (advanceI x (storeFirst (x.toNat + 1) s)) := by
  rw [storeFirst_eq, advanceI_eq]
  exact .storeRegs x _ _ incI_of_advanceI_ne

theorem execEffect_loadRegs (x : Nibble) (s : State) :
    ExecEffect s (.loadRegs x) (advanceI x (loadFirst (x.toNat + 1) s)) := by
  rw [loadFirst_eq, advanceI_eq]
  exact .loadRegs x _ _ (writesVOf_loadFirst x s) incI_of_advanceI_ne

/-- Every instruction goes on, with one of the effects above. -/
theorem exec_effect (i : Instr) (s : State) : ∃ t, exec i s = .next t ∧ ExecEffect s i t := by
  cases i with
  | sys nnn => exact ⟨_, rfl, .sys nnn⟩
  | jp | jpV0 => exact ⟨_, rfl, .pc _ rfl⟩
  | seImm | sneImm | seReg | sneReg | skp | sknp => exact ⟨_, rfl, execEffect_skipIf rfl _ s⟩
  | call nnn => exact execCall_effect nnn s
  | ret => exact execRet_effect s
  | ldImm x | addImm x | ldReg x | ldVxDt x => exact ⟨_, rfl, execEffect_setV (x := x) (by simp [mayWriteV]) _⟩
  | orReg x | andReg x | xorReg x =>
    exact ⟨_, rfl, execEffect_writeLogic (by simp [mayWriteV]) (fun hq => by simp [mayWriteV, hq]) _⟩
  | addReg x | subReg x | shrReg x | subnReg x | shlReg x =>
    exact ⟨_, rfl, execEffect_writeWithFlag (by simp [mayWriteV]) (by simp [mayWriteV]) _ _⟩
  | rnd x nn => exact ⟨_, rfl, .rnd x nn _ _ (writesVOf_setV (x := x) (by simp [mayWriteV]) _)⟩
  | cls => exact ⟨_, rfl, .cls _⟩
  | drw x y n => exact ⟨_, rfl, .drw x y n _ _ (writesVOf_setV (x := 0xF) rfl _)⟩
  | ldI | addI | ldF => exact ⟨_, rfl, .index _ rfl⟩
  | ldVxK x => exact execLdVxK_effect x s
  | ldDtVx x => exact ⟨_, rfl, .ldDtVx x _⟩
  | ldStVx x => exact ⟨_, rfl, .ldStVx x _⟩
  | ldB x => exact ⟨_, rfl, .ldB x _⟩
  | storeRegs x => exact ⟨_, rfl, execEffect_storeRegs x s⟩
  | loadRegs x => exact ⟨_, rfl, execEffect_loadRegs x s⟩

theorem execEffect_of_exec {i : Instr} {s t : State} (h : exec i s = .next t) : ExecEffect s i t := by
  obtain ⟨u, hu, he⟩ := exec_effect i s
  rw [h] at hu
  cases hu
  exact he

end Sys2Proof.Machine
end

section
/-! PROOFS. The statements of spec/10_state.md: the writers of each element (R23 to R36), the session's constants
(R37), the advance of PC (R26), a call on a full stack (R29) and the values at session start (R43). -/

namespace Sys2Proof.Machine

/-! ### The writers of each element -/

/-- Settles O55: an effect that leaves V alone changes no register, and every other effect carries R23's condition. -/
theorem writersOfRegisters : Obligations.WritersOfRegisters := by
  intro i s t z h hz
  cases execEffect_of_exec h with
  | registers v hv | rnd x nn v d hv | drw x y n v d hv | ldVxK x v a k hv | loadRegs x v a hv ha => exact hv z hz
  | sys | pc | call | ret | cls | index | ldDtVx | ldStVx | ldB | storeRegs => exact absurd rfl hz

/-- Settles O56: each effect names the elements it writes, and its instruction is a writer of each of them. -/
theorem writersOfTheOtherElements : Obligations.WritersOfTheOtherElements := by
  intro i s t h
  cases execEffect_of_exec h with
  | sys | pc | registers => simp [State.readByte]
  | index a hi => simp [State.readByte, hi]
  | call | ret | rnd | cls | drw | ldVxK | ldDtVx | ldStVx | ldB => simp [State.readByte]
  | storeRegs x m a ha => simpa [State.readByte] using ha
  | loadRegs x v a hv ha => simpa [State.readByte] using ha

/-! ### The session's constants -/

/-- No effect touches the variant or the overflow policy. -/
theorem exec_keeps_session {i : Instr} {s t : State} (h : exec i s = .next t) :
    t.variant = s.variant ∧ t.overflow = s.overflow := by
  cases execEffect_of_exec h <;> exact ⟨rfl, rfl⟩

theorem hostAct_keeps_session (s : State) (a : HostAction) :
    (hostAct s a).variant = s.variant ∧ (hostAct s a).overflow = s.overflow := by
  rw [hostAct_eq]
  exact ⟨rfl, rfl⟩

theorem hostTurn_keeps_session (s : State) :
    (hostTurn s).variant = s.variant ∧ (hostTurn s).overflow = s.overflow := by
  rw [hostTurn_eq]
  exact ⟨rfl, rfl⟩

theorem step_keeps_session {s t : State} (h : step s = .next t) :
    t.variant = s.variant ∧ t.overflow = s.overflow := by
  obtain ⟨i, _, hexec⟩ | ⟨_, _, rfl⟩ := step_cases h
  · obtain ⟨hvariant, hoverflow⟩ := exec_keeps_session hexec
    exact ⟨hvariant.trans (hostTurn_keeps_session s).1, hoverflow.trans (hostTurn_keeps_session s).2⟩
  · exact hostTurn_keeps_session s

theorem runSteps_keeps_session (n : Nat) {s t : State} (h : runSteps n s = .next t) :
    t.variant = s.variant ∧ t.overflow = s.overflow := by
  induction n generalizing s with
  | zero =>
    cases h
    exact ⟨rfl, rfl⟩
  | succ n ih =>
    obtain ⟨u, hstep, hrun⟩ := runSteps_succ_cases h
    obtain ⟨hvariant, hoverflow⟩ := step_keeps_session hstep
    exact ⟨(ih hrun).1.trans hvariant, (ih hrun).2.trans hoverflow⟩

/-- Settles O57, by induction on the number of steps. -/
theorem variantIsFixedForTheSession : Obligations.VariantIsFixedForTheSession :=
  ⟨hostAct_keeps_session, fun n _ _ => runSteps_keeps_session n⟩

/-! ### The advance of PC -/

theorem hostTurn_pc (s : State) : (hostTurn s).pc = s.pc := by
  rw [hostTurn_eq]

/-- The host's turn changes neither PC nor memory, so the word fetched after it is the one at PC before it. -/
theorem fetch_hostTurn (s : State) : fetch (hostTurn s) = fetch s := by
  rw [hostTurn_eq]
  rfl

theorem exec_keeps_pc {i : Instr} {s t : State} (hi : maySetPc i = false) (h : exec i s = .next t) :
    t.pc = s.pc := by
  cases execEffect_of_exec h with
  | pc a hset => rw [hset] at hi; cases hi
  | call | ret | ldVxK => cases hi
  | sys | registers | rnd | cls | drw | index | ldDtVx | ldStVx | ldB | storeRegs | loadRegs => rfl

/-- The fetch's advance of PC after the host's turn, as a number (R26). -/
theorem toNat_pc_advancePc_hostTurn (s : State) :
    (advancePc (hostTurn s)).pc.toNat = (s.pc.toNat + 2) % 65536 := by
  rw [advancePc_eq, State.setPc_pc, hostTurn_pc, BitVec.toNat_add]
  rfl

/-- Settles O58: the fetch advances PC, and the transition after it leaves PC alone. -/
theorem pcAdvancesByTwo : Obligations.PcAdvancesByTwo := by
  intro s t h
  rw [← fetch_hostTurn s, ← toNat_pc_advancePc_hostTurn s]
  obtain ⟨i, hdec, hexec⟩ | ⟨why, hdec, rfl⟩ := step_cases h
  · refine ⟨fun j hj hpc => ?_, fun why hw => ?_⟩
    · cases hdec.symm.trans hj
      rw [exec_keeps_pc hpc hexec]
    · cases hdec.symm.trans hw
  · exact ⟨fun _ _ _ => rfl, fun _ _ => rfl⟩

/-! ### A call on a full stack -/

theorem toNat_target (nnn : Addr12) : (target nnn).toNat = nnn.toNat :=
  BitVec.toNat_setWidth_of_le (by decide)

theorem execCall_of_reject_full (nnn : Addr12) (s : State) (h : ¬ s.sp.val < 12) (hp : s.overflow = .reject) :
    execCall nnn s = .next s := by
  rw [execCall, push_reject_full s.pc s h hp]

theorem execCall_of_dropOldest_full (nnn : Addr12) (s : State) (h : ¬ s.sp.val < 12)
    (hp : s.overflow = .dropOldest) :
    execCall nnn s =
      .next { s with pc := target nnn, stack := (shiftStack s.stack).setIfInBounds 11 s.pc } := by
  rw [execCall, push_dropOldest_full s.pc s h hp]
  rfl

/-- Settles O18: the push has no room, so the session's policy decides what the call does. -/
theorem callOnFullStack : Obligations.CallOnFullStack := by
  intro nnn s hsp
  have hfull : ¬ s.sp.val < 12 := by omega
  refine ⟨execCall_of_reject_full nnn s hfull, fun hp =>
    ⟨_, execCall_of_dropOldest_full nnn s hfull hp, toNat_target nnn, ?_, fun k hk => ?_, rfl, fun _ => rfl⟩⟩
  · exact Vector.getElem_setIfInBounds_self _
  · have hlast : 11 ≠ k := by omega
    exact (Vector.getElem_setIfInBounds_ne _ hlast).trans (getElem_shiftStack s.stack k hk)

/-! ### Session start -/

/-- The load that `State.reset` stands for (log 22). -/
theorem load_spec_empty : load specParameters State.reset.variant (some []) = .next State.reset := by
  rw [load_of_fits _ _ _ (by decide), startSession, startMemory_spec]
  rfl

/-- At reset a byte is the font's below 0x050 and zero elsewhere (R43). -/
theorem reset_readByte (a : Nat) :
    State.reset.readByte a = if a % 4096 < 80 then font.getD (a % 4096) 0 else 0 := by
  have hread : State.reset.readByte a = font.getD (a % 4096) 0 := rfl
  split
  · exact hread
  · have hlen : font.length ≤ a % 4096 := by
      have : font.length = 80 := by decide
      omega
    rw [hread, List.getD_eq_default _ _ hlen]

/-- Settles O13: the elements that R43 zeroes hold one value throughout, and the memory lists nothing. -/
theorem resetValues : Obligations.ResetValues := by
  have hv : ∀ z, State.reset.getV z = 0 := fun z => Vector.getElem_replicate z.isLt
  have hstack : ∀ (k : Nat) (hk : k < 12), State.reset.stack[k] = 0 := fun k hk => Vector.getElem_replicate hk
  have hkey : ∀ k, State.reset.keyDown k = false := fun k => Vector.getElem_replicate k.isLt
  exact ⟨rfl, rfl, rfl, hv, rfl, rfl, hstack, pixel_off, hkey, rfl, rfl, load_spec_empty, reset_readByte⟩

end Sys2Proof.Machine
end

section
/-! PROOFS. The statements of spec/20_memory.md: the canonical form of the memory list is kept by every step and holds
in every state a run reaches (R50, R53, log 23), and a stored byte is what the next read and fetch see (R61, R64). -/

namespace Sys2Proof.Machine

/-! ### The canonical form under one step -/

/-- `FX33` stores three bytes (R144). -/
theorem execLdB_keeps_inv {x : Nibble} {s t : State} (h : execLdB x s = .next t) (hs : s.Inv) : t.Inv := by
  cases h
  exact State.writeByte_wf _ _ _ (State.writeByte_wf _ _ _ (State.writeByte_wf _ _ _ hs))

/-- `FX55` stores X + 1 bytes, and the advance of I leaves them (R145). -/
theorem execStoreRegs_keeps_inv {x : Nibble} {s t : State} (h : execStoreRegs x s = .next t) (hs : s.Inv) :
    t.Inv := by
  cases h
  rw [State.Inv, advanceI_mem]
  exact storeFirst_wf (x.toNat + 1) s hs

/-- `FX33` and `FX55` are the only stores (R53); every other effect leaves the memory list itself. -/
theorem exec_keeps_inv {i : Instr} {s t : State} (h : exec i s = .next t) (hs : s.Inv) : t.Inv := by
  cases execEffect_of_exec h with
  | ldB => exact execLdB_keeps_inv h hs
  | storeRegs => exact execStoreRegs_keeps_inv h hs
  | sys | pc | call | ret | registers | rnd | cls | drw | index | ldVxK | ldDtVx | ldStVx | loadRegs => exact hs

theorem hostAct_mem (s : State) (a : HostAction) : (hostAct s a).mem = s.mem := by
  rw [hostAct_eq]

theorem hostTurn_mem (s : State) : (hostTurn s).mem = s.mem := by
  rw [hostTurn_eq]

/-- The state in which the fetched word is executed has the memory from before the step. -/
theorem advancePc_hostTurn_mem (s : State) : (advancePc (hostTurn s)).mem = s.mem := hostTurn_mem s

/-- Settles O8: the host's turn and the fetch leave memory alone, and the transition stores inside the address space. -/
theorem stepKeepsMemoryCanonical : Obligations.StepKeepsMemoryCanonical := by
  intro s t hs h
  have hfetched : (advancePc (hostTurn s)).Inv := by rwa [State.Inv, advancePc_hostTurn_mem]
  obtain ⟨i, _, hexec⟩ | ⟨_, _, rfl⟩ := step_cases h
  · exact exec_keeps_inv hexec hfetched
  · exact hfetched

/-! ### The canonical form at session start and along a run -/

/-- Everything a successful load can do: its source was readable, the image fits, and the session is `startSession`. -/
theorem load_cases {params : Parameters} {variant : Variant} {image : Option (List Byte)} {s : State}
    (h : load params variant image = .next s) :
    ∃ bytes, image = some bytes ∧ bytes.length ≤ 3584 ∧ s = startSession params variant bytes := by
  cases image with
  | none => rw [load_of_unreadable] at h; cases h
  | some bytes =>
    by_cases hfit : bytes.length ≤ 3584
    · rw [load_of_fits params variant bytes hfit] at h
      cases h
      exact ⟨bytes, rfl, hfit, rfl⟩
    · rw [load_of_tooLong params variant bytes (by omega)] at h
      cases h

theorem load_gives_inv {params : Parameters} {variant : Variant} {image : Option (List Byte)} {s : State}
    (h : load params variant image = .next s) : s.Inv := by
  obtain ⟨bytes, -, hfit, rfl⟩ := load_cases h
  exact startMemory_wf params bytes hfit

/-- Settles O9: the list is empty at reset, and an image that fits is written inside the address space. -/
theorem resetAndLoadGiveCanonicalMemory : Obligations.ResetAndLoadGiveCanonicalMemory :=
  ⟨rfl, fun _ _ _ _ => load_gives_inv⟩

/-- Settles O10, by induction on the run: a load gives the form, a step keeps it, the host touches no memory. -/
theorem reachableMemoryIsCanonical : Obligations.ReachableMemoryIsCanonical := by
  intro s hreach
  induction hreach with
  | load params variant image s h => exact load_gives_inv h
  | step s t _ h ih => exact stepKeepsMemoryCanonical s t ih h
  | act s a _ ih => rwa [State.Inv, hostAct_mem]
  | schedule s q _ ih => exact ih

/-! ### A stored byte, read and fetched -/

/-- The low byte of an opcode is the second byte fetched (R54, R72). -/
theorem fieldNN_opcodeOf (hi lo : Byte) : fieldNN (opcodeOf hi lo) = lo := BitVec.extractLsb'_append_eq_right

/-- The two high nibbles of an opcode are the first byte fetched (R54, R72). -/
theorem fieldH_append_fieldX_opcodeOf (hi lo : Byte) :
    fieldH (opcodeOf hi lo) ++ fieldX (opcodeOf hi lo) = hi :=
  (BitVec.extractLsb'_append_extractLsb'_eq_extractLsb' rfl).trans BitVec.extractLsb'_append_eq_left

/-- Consecutive addresses stay apart under the wrap of R51, so a store changes one half of an opcode only. -/
theorem addr_succ_ne (a : Nat) : addr (a + 1) ≠ addr a := by
  unfold addr
  omega

/-- A fetch after a store to its first byte. -/
theorem fetch_writeByte_high (s : State) (a : Nat) (b : Byte) (h : addr a = addr s.pc.toNat) :
    fetch (s.writeByte a b) = opcodeOf b (s.readByte (s.pc.toNat + 1)) := by
  have hlow : addr (s.pc.toNat + 1) ≠ addr a := h ▸ addr_succ_ne s.pc.toNat
  rw [fetch, State.writeByte_pc, State.readByte_writeByte, State.readByte_writeByte, if_pos h.symm, if_neg hlow]

/-- A fetch after a store to its second byte. -/
theorem fetch_writeByte_low (s : State) (a : Nat) (b : Byte) (h : addr a = addr (s.pc.toNat + 1)) :
    fetch (s.writeByte a b) = opcodeOf (s.readByte s.pc.toNat) b := by
  have hhigh : addr s.pc.toNat ≠ addr a := h ▸ (addr_succ_ne s.pc.toNat).symm
  rw [fetch, State.writeByte_pc, State.readByte_writeByte, State.readByte_writeByte, if_neg hhigh, if_pos h.symm]

/-- Settles O14: a read after a write, taken at the two addresses of a fetch. -/
theorem storedByteIsReadAndFetched : Obligations.StoredByteIsReadAndFetched := by
  intro s a b
  refine ⟨State.readByte_writeByte s a b, fun h => ?_, fun h => ?_⟩
  · rw [fetch_writeByte_high s a b h, fetch, fieldNN_opcodeOf]
    rfl
  · rw [fetch_writeByte_low s a b h, fetch, fieldH_append_fieldX_opcodeOf]
    rfl

end Sys2Proof.Machine
end

section
/-! PROOFS. The decoder and the encoder (spec/30_encoding.md R72 to R79): what the decoder can answer for a word, said
once; the round trips in both directions; the words of R78. -/

namespace Sys2Proof

/-! ### Words by their high nibble -/

theorem nibble_cases : ∀ h : Nibble, h = 0x0 ∨ h = 0x1 ∨ h = 0x2 ∨ h = 0x3 ∨ h = 0x4 ∨ h = 0x5 ∨ h = 0x6 ∨ h = 0x7 ∨
    h = 0x8 ∨ h = 0x9 ∨ h = 0xA ∨ h = 0xB ∨ h = 0xC ∨ h = 0xD ∨ h = 0xE ∨ h = 0xF := by
  decide

theorem hnnn_of_fieldH {w : Word} {h : Nibble} (hH : fieldH w = h) : h ++ fieldNNN w = w := by
  rw [← hH, ← word_eq_hnnn]

theorem hxnn_of_fieldH {w : Word} {h : Nibble} (hH : fieldH w = h) : h ++ fieldX w ++ fieldNN w = w := by
  rw [← hH, ← word_eq_hxnn]

theorem hxyn_of_fieldH {w : Word} {h : Nibble} (hH : fieldH w = h) :
    h ++ fieldX w ++ fieldY w ++ fieldN w = w := by
  rw [← hH, ← word_eq_hxyn]

/-! ### What the decoder can answer -/

/-- The words of each list of R78. -/
def Unassigned.Lists : Unassigned → Word → Prop
  | .aluSelector, w => fieldH w = 0x8 ∧ fieldN w ∈ [0x8#4, 0x9, 0xA, 0xB, 0xC, 0xD, 0xF]
  | .keySelector, w => fieldH w = 0xE ∧ fieldNN w ∉ [0x9E#8, 0xA1]
  | .miscSelector, w => fieldH w = 0xF ∧ fieldNN w ∉ [0x07#8, 0x0A, 0x15, 0x18, 0x1E, 0x29, 0x33, 0x55, 0x65]

/-- The answers the decoder can give for `w`: a well-formed instruction whose opcode is `w`, or the list of R78 that
`w` is on. -/
inductive DecodeAnswer (w : Word) : Except Unassigned Instr → Prop
  | ok {i : Instr} (hw : encode i = w) (hi : i.wf = true) : DecodeAnswer w (.ok i)
  | error {why : Unassigned} (hlist : why.Lists w) : DecodeAnswer w (.error why)

/-- The low nibbles that group `8` does not assign are those of R78's first list. -/
theorem nibble_mem_aluList : ∀ n : Nibble, n ≠ 0x0 → n ≠ 0x1 → n ≠ 0x2 → n ≠ 0x3 → n ≠ 0x4 → n ≠ 0x5 → n ≠ 0x6 →
    n ≠ 0x7 → n ≠ 0xE → n ∈ [0x8#4, 0x9, 0xA, 0xB, 0xC, 0xD, 0xF] := by
  decide

theorem decodeGroup0_answer {w : Word} (hH : fieldH w = 0x0) :
    DecodeAnswer w (.ok (decodeGroup0 (fieldNNN w))) := by
  have hw := hnnn_of_fieldH hH
  unfold decodeGroup0
  split_ifs with hcls hret
  · rw [hcls] at hw
    exact .ok hw rfl
  · rw [hret] at hw
    exact .ok hw rfl
  · exact .ok hw (by simpa [Instr.wf] using ⟨hcls, hret⟩)

theorem decodeGroup8_answer {w : Word} (hH : fieldH w = 0x8) :
    DecodeAnswer w (decodeGroup8 (fieldX w) (fieldY w) (fieldN w)) := by
  have hw := hxyn_of_fieldH hH
  unfold decodeGroup8
  split_ifs with h0 h1 h2 h3 h4 h5 h6 h7 hE
  case neg => exact .error ⟨hH, nibble_mem_aluList _ h0 h1 h2 h3 h4 h5 h6 h7 hE⟩
  all_goals rw [‹fieldN w = _›] at hw; exact .ok hw rfl

theorem decodeGroupE_answer {w : Word} (hH : fieldH w = 0xE) :
    DecodeAnswer w (decodeGroupE (fieldX w) (fieldNN w)) := by
  have hw := hxnn_of_fieldH hH
  unfold decodeGroupE
  split_ifs with h9E hA1
  case neg => exact .error ⟨hH, by simpa using ⟨h9E, hA1⟩⟩
  all_goals rw [‹fieldNN w = _›] at hw; exact .ok hw rfl

theorem decodeGroupF_answer {w : Word} (hH : fieldH w = 0xF) :
    DecodeAnswer w (decodeGroupF (fieldX w) (fieldNN w)) := by
  have hw := hxnn_of_fieldH hH
  unfold decodeGroupF
  split_ifs with h07 h0A h15 h18 h1E h29 h33 h55 h65
  case neg => exact .error ⟨hH, by simpa using ⟨h07, h0A, h15, h18, h1E, h29, h33, h55, h65⟩⟩
  all_goals rw [‹fieldNN w = _›] at hw; exact .ok hw rfl

/-- The dispatch by the high nibble (R75): each selector puts its operands where `encode` does. -/
theorem decode_answer (w : Word) : DecodeAnswer w (decode w) := by
  obtain h | h | h | h | h | h | h | h | h | h | h | h | h | h | h | h := nibble_cases (fieldH w)
  all_goals simp only [decode, h, BitVec.ofNat_eq_ofNat, BitVec.reduceEq, reduceIte]
  · exact decodeGroup0_answer h
  · exact .ok (hnnn_of_fieldH h) rfl
  · exact .ok (hnnn_of_fieldH h) rfl
  · exact .ok (hxnn_of_fieldH h) rfl
  · exact .ok (hxnn_of_fieldH h) rfl
  · exact .ok (hxyn_of_fieldH h) rfl
  · exact .ok (hxnn_of_fieldH h) rfl
  · exact .ok (hxnn_of_fieldH h) rfl
  · exact decodeGroup8_answer h
  · exact .ok (hxyn_of_fieldH h) rfl
  · exact .ok (hnnn_of_fieldH h) rfl
  · exact .ok (hnnn_of_fieldH h) rfl
  · exact .ok (hxnn_of_fieldH h) rfl
  · exact .ok (hxyn_of_fieldH h) rfl
  · exact decodeGroupE_answer h
  · exact decodeGroupF_answer h

/-! ### The round trips -/

/-- Settles O1: the slices of an opcode are its selectors and operands, and the selectors lead the dispatch back. -/
theorem decodeOfEncode : Obligations.DecodeOfEncode := by
  intro i hi
  cases i with
  | cls | ret => decide
  | sys nnn =>
    obtain ⟨hcls, hret⟩ : nnn ≠ 0x0E0#12 ∧ nnn ≠ 0x0EE#12 := by simpa [Instr.wf] using hi
    simp [encode, decode, decodeGroup0, hcls, hret]
  | jp | call | ldI | jpV0 | seImm | sneImm | ldImm | addImm | rnd | seReg | sneReg | drw => simp [encode, decode]
  | ldReg | orReg | andReg | xorReg | addReg | subReg | shrReg | subnReg | shlReg =>
    simp [encode, decode, decodeGroup8]
  | skp | sknp => simp [encode, decode, decodeGroupE]
  | ldVxDt | ldVxK | ldDtVx | ldStVx | addI | ldF | ldB | storeRegs | loadRegs =>
    simp [encode, decode, decodeGroupF]

/-- Settles O2: a word that decodes has the first of the decoder's two answers. -/
theorem encodeOfDecode : Obligations.EncodeOfDecode := by
  intro w i h
  have hanswer := decode_answer w
  rw [h] at hanswer
  cases hanswer with
  | ok hw hi => exact ⟨hw, hi⟩

/-- Settles O5: each word is decoded. -/
theorem sampleWordsDecode : Obligations.SampleWordsDecode := by
  unfold Obligations.SampleWordsDecode
  decide

/-! ### The words of R78 and of group 0 -/

theorem decode_of_lists {why : Unassigned} {w : Word} (hlist : why.Lists w) : decode w = .error why := by
  cases why with
  | aluSelector =>
    obtain ⟨hH, hN⟩ := hlist
    simp only [List.mem_cons, List.not_mem_nil, or_false] at hN
    obtain h | h | h | h | h | h | h := hN <;> simp [decode, decodeGroup8, hH, h]
  | keySelector =>
    obtain ⟨hH, hNN⟩ := hlist
    simp only [List.mem_cons, List.not_mem_nil, or_false, not_or, BitVec.ofNat_eq_ofNat] at hNN
    simp [decode, decodeGroupE, hH, hNN]
  | miscSelector =>
    obtain ⟨hH, hNN⟩ := hlist
    simp only [List.mem_cons, List.not_mem_nil, or_false, not_or, BitVec.ofNat_eq_ofNat] at hNN
    simp [decode, decodeGroupF, hH, hNN]

/-- R78: the decoder rejects exactly the words of the three lists, each by the name of its list. -/
theorem decode_eq_error_iff {why : Unassigned} {w : Word} : decode w = .error why ↔ why.Lists w := by
  refine ⟨fun h => ?_, decode_of_lists⟩
  have hanswer := decode_answer w
  rw [h] at hanswer
  cases hanswer with
  | error hlist => exact hlist

/-- A word of group 0 other than `00E0` and `00EE` is `SYS` (R77). -/
theorem decode_eq_sys {w : Word} (hH : fieldH w = 0x0) (hcls : w ≠ 0x00E0) (hret : w ≠ 0x00EE) :
    decode w = .ok (.sys (fieldNNN w)) := by
  have hw := hnnn_of_fieldH hH
  have h0E0 : fieldNNN w ≠ 0x0E0 := fun h => hcls (by rw [← hw, h]; rfl)
  have h0EE : fieldNNN w ≠ 0x0EE := fun h => hret (by rw [← hw, h]; rfl)
  rw [decode, if_pos hH, decodeGroup0, if_neg h0E0, if_neg h0EE]

end Sys2Proof
end

section
/-! PROOFS. The opcode map as a table of masks and patterns (R76): each mask selects fields of a word, so the first
matching row is the dispatch of R75. -/

namespace Sys2Proof.Machine

/-! ### The masks of the map -/

theorem nibble_and_ones (a : Nibble) : a &&& 0xF#4 = a := BitVec.and_allOnes

theorem byte_and_ones (a : Byte) : a &&& 0xFF#8 = a := BitVec.and_allOnes

theorem and_FFFF (w : Word) : w &&& 0xFFFF = fieldH w ++ fieldNNN w :=
  BitVec.and_allOnes.trans (word_eq_hnnn w)

theorem and_F000 (w : Word) : w &&& 0xF000 = fieldH w ++ 0#12 := by
  calc w &&& 0xF000 = (fieldH w ++ fieldNNN w) &&& (0xF#4 ++ 0#12) := by rw [← word_eq_hnnn]; rfl
    _ = fieldH w ++ 0#12 := by simp only [BitVec.and_append, BitVec.and_zero, nibble_and_ones]

theorem and_F0FF (w : Word) : w &&& 0xF0FF = fieldH w ++ 0#4 ++ fieldNN w := by
  calc w &&& 0xF0FF = (fieldH w ++ fieldX w ++ fieldNN w) &&& (0xF#4 ++ 0#4 ++ 0xFF#8) := by
        rw [← word_eq_hxnn]; rfl
    _ = fieldH w ++ 0#4 ++ fieldNN w := by
        simp only [BitVec.and_append, BitVec.and_zero, nibble_and_ones, byte_and_ones]

theorem and_F00F (w : Word) : w &&& 0xF00F = fieldH w ++ 0#4 ++ 0#4 ++ fieldN w := by
  calc w &&& 0xF00F = (fieldH w ++ fieldX w ++ fieldY w ++ fieldN w) &&& (0xF#4 ++ 0#4 ++ 0#4 ++ 0xF#4) := by
        rw [← word_eq_hxyn]; rfl
    _ = fieldH w ++ 0#4 ++ 0#4 ++ fieldN w := by
        simp only [BitVec.and_append, BitVec.and_zero, nibble_and_ones]

/-! ### A word given by its fields, compared with a pattern -/

theorem hnnn_eq_iff {h : Nibble} {nnn : Addr12} {p : Word} :
    h ++ nnn = p ↔ h = p.extractLsb' 12 4 ∧ nnn = p.extractLsb' 0 12 := by
  refine ⟨?_, ?_⟩
  · rintro rfl
    exact ⟨(fieldH_hnnn h nnn).symm, (fieldNNN_hnnn h nnn).symm⟩
  · rintro ⟨rfl, rfl⟩
    exact (word_eq_hnnn p).symm

theorem hxnn_eq_iff {h x : Nibble} {nn : Byte} {p : Word} :
    h ++ x ++ nn = p ↔ h = p.extractLsb' 12 4 ∧ x = p.extractLsb' 8 4 ∧ nn = p.extractLsb' 0 8 := by
  refine ⟨?_, ?_⟩
  · rintro rfl
    exact ⟨(fieldH_hxnn h x nn).symm, (fieldX_hxnn h x nn).symm, (fieldNN_hxnn h x nn).symm⟩
  · rintro ⟨rfl, rfl, rfl⟩
    exact (word_eq_hxnn p).symm

theorem hxyn_eq_iff {h x y n : Nibble} {p : Word} :
    h ++ x ++ y ++ n = p ↔
      h = p.extractLsb' 12 4 ∧ x = p.extractLsb' 8 4 ∧ y = p.extractLsb' 4 4 ∧ n = p.extractLsb' 0 4 := by
  refine ⟨?_, ?_⟩
  · rintro rfl
    exact ⟨(fieldH_hxyn h x y n).symm, (fieldX_hxyn h x y n).symm, (fieldY_hxyn h x y n).symm,
      (fieldN_hxyn h x y n).symm⟩
  · rintro ⟨rfl, rfl, rfl, rfl⟩
    exact (word_eq_hxyn p).symm

/-! ### The first matching row -/

/-- The search of `firstRow`, one row at a time. -/
theorem firstMatch_cons (w m p : Word) (f : Word → Instr) (rows : List OpcodeRow) :
    ((⟨m, p, f⟩ :: rows).find? (fun r => w &&& r.mask == r.pattern)).map (fun r => r.instr w) =
      if w &&& m = p then some (f w)
      else (rows.find? (fun r => w &&& r.mask == r.pattern)).map (fun r => r.instr w) := by
  by_cases h : w &&& m = p <;> simp [h]

theorem toOption_ok (i : Instr) : (Except.ok i : Except Unassigned Instr).toOption = some i := rfl

theorem toOption_error (why : Unassigned) : (Except.error why : Except Unassigned Instr).toOption = none := rfl

/-- Settles O3: the masks select the fields that the dispatch compares, so under each high nibble the rows of the map
left over are the branches of `decode`, in the same order. -/
theorem decodeIsFirstRowOfOpcodeMap : Obligations.DecodeIsFirstRowOfOpcodeMap := by
  intro w
  simp only [firstRow, opcodeMap, List.cons_append, List.nil_append, firstMatch_cons, and_FFFF, and_F000, and_F0FF,
    and_F00F, hnnn_eq_iff, hxnn_eq_iff, hxyn_eq_iff]
  obtain h | h | h | h | h | h | h | h | h | h | h | h | h | h | h | h := nibble_cases (fieldH w)
  all_goals
    simp [h, decode, decodeGroup0, decodeGroup8, decodeGroupE, decodeGroupF, apply_ite Except.toOption,
      apply_ite Option.some, toOption_ok, toOption_error]

end Sys2Proof.Machine
end

section
/-! PROOFS. The Step at a word (spec/30_encoding.md R70, R71): the decoded instruction in the state after the host's
turn, or the no-op of R78. -/

namespace Sys2Proof.Machine

/-- The host's turn is the schedule's first batch, and no action where the schedule is empty. -/
theorem hostTurn_eq_foldl (s : State) :
    hostTurn s = (s.schedule.headD []).foldl hostAct { s with schedule := s.schedule.tail } := by
  unfold hostTurn
  split
  next h =>
    cases s
    cases h
    rfl
  next acts rest h =>
    rw [h]
    rfl

theorem step_of_decode_ok {s : State} {i : Instr} (h : decode (fetch s) = .ok i) :
    step s = exec i { hostTurn s with pc := s.pc + 2 } := by
  rw [step, runOpcode, fetch_hostTurn, h, advancePc_eq, hostTurn_pc]
  rfl

theorem step_of_decode_error {s : State} {why : Unassigned} (h : decode (fetch s) = .error why) :
    step s = .next { hostTurn s with pc := s.pc + 2 } := by
  rw [step, runOpcode, fetch_hostTurn, h, advancePc_eq, hostTurn_pc]
  rfl

/-- Settles O6: the fetched word is the one the host's turn leaves at PC. -/
theorem stepRunsDecodedInstruction : Obligations.StepRunsDecodedInstruction :=
  fun s => ⟨hostTurn_eq_foldl s, hostTurn_eq s, fun _ => step_of_decode_ok⟩

/-- The words the decoder rejects are those of the three lists of R78. -/
theorem exists_decode_eq_error_iff (w : Word) :
    (∃ why, decode w = .error why) ↔
      Unassigned.aluSelector.Lists w ∨ Unassigned.keySelector.Lists w ∨ Unassigned.miscSelector.Lists w := by
  constructor
  · rintro ⟨why, h⟩
    have hlist := decode_eq_error_iff.mp h
    cases why with
    | aluSelector => exact .inl hlist
    | keySelector => exact .inr (.inl hlist)
    | miscSelector => exact .inr (.inr hlist)
  · rintro (h | h | h) <;> exact ⟨_, decode_of_lists h⟩

/-- Settles O4: a listed word is rejected and executes as nothing, and so does `SYS`, the rest of group 0 (R91). -/
theorem unassignedWordsAreNoOps : Obligations.UnassignedWordsAreNoOps := by
  intro w listed
  refine ⟨exists_decode_eq_error_iff w, fun s hfetch h => ?_⟩
  subst hfetch
  obtain hlisted | ⟨hH, hcls, hret⟩ := h
  · obtain ⟨why, hwhy⟩ := (exists_decode_eq_error_iff (fetch s)).mpr hlisted
    exact step_of_decode_error hwhy
  · exact step_of_decode_ok (decode_eq_sys hH hcls hret)

end Sys2Proof.Machine
end

section
/-! PROOFS. Independence of the variant (spec/30_encoding.md R80): only the quirks of R12 read it, so an instruction
that asks for no quirk commutes with a change of the variant. -/

namespace Sys2Proof.Machine

/-! ### The outcomes of a call, a return and the wait for a key, one equation per case -/

theorem execCall_of_room (nnn : Addr12) (s : State) (h : s.sp.val < 12) :
    execCall nnn s =
      .next { s with pc := target nnn, stack := s.stack.set s.sp.val s.pc h,
                     sp := ⟨s.sp.val + 1, Nat.succ_lt_succ h⟩ } := by
  rw [execCall, push_of_room s.pc s h]
  rfl

theorem execRet_of_pos (s : State) (h : 0 < s.sp.val) :
    execRet s =
      .next { s with pc := s.stack[s.sp.val - 1]'(by omega), sp := ⟨s.sp.val - 1, by omega⟩ } := by
  rw [execRet, pop, dif_pos h]
  rfl

theorem execRet_of_empty (s : State) (h : ¬ 0 < s.sp.val) : execRet s = .next s := by
  rw [execRet, pop_empty s h]

/-- No wait has begun and no key is down. -/
theorem execLdVxK_of_noKey (x : Nibble) (s : State) (hwait : s.waitKey = none) (hkey : lowestDown s = none) :
    execLdVxK x s = .next (rewindPc s) := by
  rw [execLdVxK, hwait, hkey]

/-- The press that begins a wait. -/
theorem execLdVxK_of_press (x : Nibble) (s : State) (k : KeyCode) (hwait : s.waitKey = none)
    (hkey : lowestDown s = some k) : execLdVxK x s = .next (rewindPc { s with waitKey := some k }) := by
  rw [execLdVxK, hwait, hkey]

/-- The key of the wait is still down. -/
theorem execLdVxK_of_held (x : Nibble) (s : State) (k : KeyCode) (hwait : s.waitKey = some k)
    (hdown : s.keyDown k = true) : execLdVxK x s = .next (rewindPc s) := by
  rw [execLdVxK, hwait]
  exact if_pos hdown

/-- The release that ends a wait. -/
theorem execLdVxK_of_release (x : Nibble) (s : State) (k : KeyCode) (hwait : s.waitKey = some k)
    (hup : s.keyDown k = false) :
    execLdVxK x s = .next ({ s with waitKey := none }.setV x (k.setWidth 8)) := by
  rw [execLdVxK, hwait]
  exact if_neg (by simp [hup])

/-! ### The same under another variant -/

theorem skipIf_withVariant (c : Bool) (s : State) (variant : Variant) :
    skipIf c { s with variant := variant } = { skipIf c s with variant := variant } := by
  cases c <;> rfl

/-- A call reads the stack and the session's overflow policy (R93). -/
theorem execCall_withVariant (nnn : Addr12) (s : State) (variant : Variant) :
    execCall nnn { s with variant := variant } =
      mapNext (fun t => { t with variant := variant }) (execCall nnn s) := by
  by_cases h : s.sp.val < 12
  · rw [execCall_of_room nnn s h]
    exact execCall_of_room nnn { s with variant := variant } h
  · obtain hp | hp : s.overflow = .reject ∨ s.overflow = .dropOldest := by cases s.overflow <;> simp
    · rw [execCall_of_reject_full nnn s h hp]
      exact execCall_of_reject_full nnn { s with variant := variant } h hp
    · rw [execCall_of_dropOldest_full nnn s h hp]
      exact execCall_of_dropOldest_full nnn { s with variant := variant } h hp

/-- A return reads the stack (R94). -/
theorem execRet_withVariant (s : State) (variant : Variant) :
    execRet { s with variant := variant } = mapNext (fun t => { t with variant := variant }) (execRet s) := by
  by_cases h : 0 < s.sp.val
  · rw [execRet_of_pos s h]
    exact execRet_of_pos { s with variant := variant } h
  · rw [execRet_of_empty s h]
    exact execRet_of_empty { s with variant := variant } h

/-- The wait for a key reads its own state and the keypad (R173). -/
theorem execLdVxK_withVariant (x : Nibble) (s : State) (variant : Variant) :
    execLdVxK x { s with variant := variant } =
      mapNext (fun t => { t with variant := variant }) (execLdVxK x s) := by
  obtain hwait | ⟨k, hwait⟩ := Option.eq_none_or_eq_some s.waitKey
  · obtain hkey | ⟨k, hkey⟩ := Option.eq_none_or_eq_some (lowestDown s)
    · rw [execLdVxK_of_noKey x s hwait hkey]
      exact execLdVxK_of_noKey x { s with variant := variant } hwait hkey
    · rw [execLdVxK_of_press x s k hwait hkey]
      exact execLdVxK_of_press x { s with variant := variant } k hwait hkey
  · obtain hdown | hdown := Bool.eq_false_or_eq_true (s.keyDown k)
    · rw [execLdVxK_of_held x s k hwait hdown]
      exact execLdVxK_of_held x { s with variant := variant } k hwait hdown
    · rw [execLdVxK_of_release x s k hwait hdown]
      exact execLdVxK_of_release x { s with variant := variant } k hwait hdown

/-- Settles O59: an instruction outside the seven reads the variant nowhere. -/
theorem variantChangesOnlySevenOpcodes : Obligations.VariantChangesOnlySevenOpcodes := by
  intro i variant s hi
  cases i with
  | orReg | andReg | xorReg | shrReg | shlReg | storeRegs | loadRegs => cases hi
  | call nnn => exact execCall_withVariant nnn s variant
  | ret => exact execRet_withVariant s variant
  | ldVxK x => exact execLdVxK_withVariant x s variant
  | seImm | sneImm | seReg | sneReg | skp | sknp => exact congrArg Host.Outcome.next (skipIf_withVariant _ s variant)
  | cls | drw | sys | jp | jpV0 => rfl
  | ldImm | addImm | rnd | ldReg | addReg | subReg | subnReg => rfl
  | ldI | addI | ldF | ldB | ldVxDt | ldDtVx | ldStVx => rfl

end Sys2Proof.Machine
end

section
/-! PROOFS. The statements of spec/40_flow.md: the jumps and the skips change PC alone (R90 to R92, R95 to R99), a call
with room pushes, a return pops, and a return undoes the call before it (R28 to R30, R93, R94). The words of these
instructions decode by the round trip of O1. -/

namespace Sys2Proof.Machine

/-! ### Jumps -/

theorem onlyPc_setPc (s : State) (a : Word) : OnlyPc s (s.setPc a) := ⟨rfl, fun _ => rfl⟩

/-- A byte and a 12-bit operand sum below 2^16, so the sum of `BNNN` never wraps (R99). -/
theorem toNat_widen_add_target (b : Byte) (nnn : Addr12) :
    (widen b + target nnn).toNat = b.toNat + nnn.toNat := by
  have hb : (widen b).toNat = b.toNat := BitVec.toNat_setWidth_of_le (by decide)
  have hlt : b.toNat + nnn.toNat < 2 ^ 16 := by omega
  rw [BitVec.toNat_add, hb, toNat_target, Nat.mod_eq_of_lt hlt]

/-- Settles O15: the two excluded words are what keeps `SYS` from being well-formed. -/
theorem sysDoesNothing : Obligations.SysDoesNothing := by
  intro nnn s hcls hret
  have hwf : (Instr.sys nnn).wf = true := by simpa [Instr.wf] using And.intro hcls hret
  exact ⟨decodeOfEncode (.sys nnn) hwf, rfl⟩

/-- Settles O16: the target is NNN zero-extended. -/
theorem jumpSetsPc : Obligations.JumpSetsPc :=
  fun nnn s => ⟨decodeOfEncode (.jp nnn) rfl, _, rfl, toNat_target nnn, onlyPc_setPc s _⟩

/-- Settles O24: the 16-bit sum is the exact one. -/
theorem jumpWithOffset : Obligations.JumpWithOffset :=
  fun nnn s => ⟨decodeOfEncode (.jpV0 nnn) rfl, _, rfl, toNat_widen_add_target (s.getV 0) nnn, onlyPc_setPc s _⟩

/-! ### Skips -/

theorem onlyPc_skipIf (c : Bool) (s : State) : OnlyPc s (skipIf c s) := by
  rw [skipIf_eq]
  exact onlyPc_setPc s _

theorem skipIf_beq_pc (a b : Byte) (s : State) : (skipIf (a == b) s).pc = if a = b then s.pc + 2 else s.pc := by
  simp [skipIf_eq]

theorem skipIf_bne_pc (a b : Byte) (s : State) : (skipIf (a != b) s).pc = if a = b then s.pc else s.pc + 2 := by
  simp [skipIf_eq]

/-- Settles O22: both are a conditional skip on the comparison of `V[X]` with NN. -/
theorem skipOnImmediate : Obligations.SkipOnImmediate :=
  fun x nn s => ⟨decodeOfEncode (.seImm x nn) rfl, decodeOfEncode (.sneImm x nn) rfl,
    ⟨_, rfl, skipIf_beq_pc (s.getV x) nn s, onlyPc_skipIf _ s⟩,
    ⟨_, rfl, skipIf_bne_pc (s.getV x) nn s, onlyPc_skipIf _ s⟩⟩

/-- Settles O23: both are a conditional skip on the comparison of `V[X]` with `V[Y]`. -/
theorem skipOnRegisters : Obligations.SkipOnRegisters :=
  fun x y n s => ⟨decodeOfEncode (.seReg x y n) rfl, decodeOfEncode (.sneReg x y n) rfl,
    ⟨_, rfl, skipIf_beq_pc (s.getV x) (s.getV y) s, onlyPc_skipIf _ s⟩,
    ⟨_, rfl, skipIf_bne_pc (s.getV x) (s.getV y) s, onlyPc_skipIf _ s⟩⟩

/-! ### Call and return -/

/-- Settles O17: the push writes the slot at the cursor and no other. -/
theorem callPushesAndJumps : Obligations.CallPushesAndJumps := by
  intro nnn s h
  refine ⟨_, execCall_of_room nnn s h, toNat_target nnn, rfl, ?_, fun k hk hne => ?_, rfl, fun _ => rfl⟩
  · exact Vector.getElem_set_self h
  · exact Vector.getElem_set_ne h hk hne.symm

/-- Settles O19: the slot below the cursor is read and kept. -/
theorem returnPopsIntoPc : Obligations.ReturnPopsIntoPc :=
  fun s h => ⟨_, execRet_of_pos s h, Nat.sub_add_cancel h, rfl, rfl, fun _ => rfl⟩

/-- The return pops the slot that the call pushed: only that slot keeps a trace of the two (R93, R94). -/
theorem execRet_after_push (s : State) (a : Word) (h : s.sp.val < 12) :
    execRet { s with pc := a, stack := s.stack.set s.sp.val s.pc h, sp := ⟨s.sp.val + 1, Nat.succ_lt_succ h⟩ } =
      .next { s with stack := s.stack.set s.sp.val s.pc h } := by
  have htop : (s.stack.set s.sp.val s.pc h)[s.sp.val] = s.pc := Vector.getElem_set_self h
  rw [execRet_of_pos _ (Nat.succ_pos _)]
  simp only [Nat.add_sub_cancel, htop]

/-- Settles O21: the slots below the cursor are not the one that the call writes. -/
theorem returnUndoesCall : Obligations.ReturnUndoesCall := by
  intro nnn s h
  refine ⟨_, _, execCall_of_room nnn s h, execRet_after_push s (target nnn) h, rfl, fun k hk hlt => ?_⟩
  exact Vector.getElem_set_ne h hk (Nat.ne_of_gt hlt)

end Sys2Proof.Machine
end

section
/-! PROOFS. The statements of spec/41_immediate.md: each instruction writes `V[X]` and no flag (R110 to R112), and the
random one spends a draw besides (R113). Their words decode by the round trip of O1. -/

namespace Sys2Proof.Machine

/-- The frame of every instruction whose one effect is a write to `V[X]`; X may be the flag register. -/
theorem onlyV_setV (s : State) (x : Nibble) (b : Byte) : OnlyV [x] s (s.setV x b) :=
  ⟨rfl, fun z hz => State.getV_setV_other s x z b (List.ne_of_not_mem_cons hz), State.readByte_setV s x b⟩

/-- Settles O25: the one effect is the write of NN. -/
theorem loadImmediate : Obligations.LoadImmediate :=
  fun x nn s => ⟨decodeOfEncode (.ldImm x nn) rfl, _, rfl, State.getV_setV_same s x nn, onlyV_setV s x nn⟩

/-- Settles O26: the sum of two bytes is the sum modulo 256. -/
theorem addImmediate : Obligations.AddImmediate := by
  intro x nn s
  refine ⟨decodeOfEncode (.addImm x nn) rfl, _, rfl, ?_, onlyV_setV s x _⟩
  rw [State.getV_setV_same, BitVec.toNat_add]

/-- Settles O27: the register write keeps the spent draw, and no property of the draw is used. -/
theorem randomAnd : Obligations.RandomAnd := by
  intro x nn s
  have hsame : ((draw8 s).2.setV x ((draw8 s).1 &&& nn)).getV x = Config.draw s.draws &&& nn :=
    State.getV_setV_same _ x _
  refine ⟨decodeOfEncode (.rnd x nn) rfl, _, rfl, hsame, fun hnn => ?_, fun z hz => ?_, rfl, fun _ => rfl⟩
  · rw [hsame, hnn]
    exact BitVec.and_zero
  · exact State.getV_setV_other _ x z _ hz

end Sys2Proof.Machine
end

section
/-! PROOFS. The statements of spec/42_alu.md: what an operation with a flag and a logical operation leave in the
registers, the flag written last (R120), and then each operation's result and flag as numbers (R121 to R129). Their
words decode by the round trip of O1. -/

namespace Sys2Proof.Machine

/-! ### The result, then the flag -/

theorem getV_writeWithFlag_result {x : Nibble} (hx : x ≠ 0xF) (r : Byte) (c : Bool) (s : State) :
    (writeWithFlag x r c s).getV x = r := by
  rw [getV_writeWithFlag, if_neg hx, if_pos rfl]

theorem getV_writeWithFlag_flag (x : Nibble) (r : Byte) (c : Bool) (s : State) :
    (writeWithFlag x r c s).getV 0xF = flagByte c := by
  rw [getV_writeWithFlag, if_pos rfl]

theorem onlyV_writeWithFlag (x : Nibble) (r : Byte) (c : Bool) (s : State) :
    OnlyV [x, 0xF] s (writeWithFlag x r c s) := by
  refine ⟨writeWithFlag_eq x r c s, fun z hz => ?_, fun _ => rfl⟩
  obtain ⟨hzx, hzf⟩ : z ≠ x ∧ z ≠ 0xF := by simpa using hz
  rw [getV_writeWithFlag, if_neg hzf, if_neg hzx]

theorem readByte_writeLogic (x : Nibble) (r : Byte) (s : State) (a : Nat) :
    (writeLogic x r s).readByte a = s.readByte a := by
  rw [writeLogic_eq]
  rfl

theorem onlyV_writeLogic (x : Nibble) (r : Byte) (s : State) : OnlyV [x, 0xF] s (writeLogic x r s) := by
  refine ⟨writeLogic_eq x r s, fun z hz => ?_, readByte_writeLogic x r s⟩
  obtain ⟨hzx, hzf⟩ : z ≠ x ∧ z ≠ 0xF := by simpa using hz
  rw [getV_writeLogic, if_neg (fun h => hzf h.1), if_neg hzx]

/-- The one argument for OR, AND and XOR: where the quirk holds the clear overwrites a result in the flag register. -/
theorem logicResult_writeLogic (x : Nibble) (r : Byte) (s : State) :
    LogicResult (quirksOf s.variant).logicVF x r s (writeLogic x r s) := by
  refine ⟨fun hx => ?_, ?_, onlyV_writeLogic x r s⟩
  · rw [getV_writeLogic, if_neg (fun h => hx h.1), if_pos rfl]
  · rw [getV_writeLogic]
    by_cases hq : (quirksOf s.variant).logicVF = true
    · rw [if_pos ⟨rfl, hq⟩, if_pos hq]
    · rw [if_neg (fun h => hq h.2), if_neg hq]
      exact if_congr eq_comm rfl rfl

/-! ### Results and flags as numbers -/

theorem flagByte_carryOut (a b : Byte) : flagByte (carryOut a b) = if a.toNat + b.toNat > 255 then 1 else 0 := by
  simp only [flagByte, carryOut, decide_eq_true_eq]

theorem flagByte_noBorrow (a b : Byte) : flagByte (noBorrow a b) = if b.toNat ≤ a.toNat then 1 else 0 := by
  simp only [flagByte, noBorrow, decide_eq_true_eq]

theorem toNat_byte_sub (a b : Byte) : (a - b).toNat = (a.toNat + 256 - b.toNat) % 256 := by
  bv_omega

theorem toNat_flagByte (c : Bool) : (flagByte c).toNat = c.toNat := by cases c <;> rfl

theorem toNat_flagByte_outRight (a : Byte) : (flagByte (outRight a)).toNat = a.toNat % 2 := by
  rw [toNat_flagByte, outRight, BitVec.getLsbD, Nat.toNat_testBit, pow_zero, Nat.div_one]

theorem toNat_flagByte_outLeft (a : Byte) : (flagByte (outLeft a)).toNat = a.toNat / 128 := by
  have hlt : a.toNat < 256 := a.isLt
  rw [toNat_flagByte, outLeft, BitVec.getLsbD, Nat.toNat_testBit]
  omega

/-! ### The operations -/

/-- Settles O28: the one effect is the register write. -/
theorem assignRegister : Obligations.AssignRegister :=
  fun x y s => ⟨decodeOfEncode (.ldReg x y) rfl, _, rfl, State.getV_setV_same s x _, onlyV_setV s x _⟩

/-- Settles O29: the three operations differ only in the result that they write. -/
theorem logicalOperations : Obligations.LogicalOperations :=
  ⟨rfl, rfl, fun x _ s => ⟨⟨_, rfl, logicResult_writeLogic x _ s⟩, ⟨_, rfl, logicResult_writeLogic x _ s⟩,
    ⟨_, rfl, logicResult_writeLogic x _ s⟩⟩⟩

/-- Settles O30: result and carry are computed from the operands before the writes. -/
theorem addRegisters : Obligations.AddRegisters := by
  intro x y s
  refine ⟨decodeOfEncode (.addReg x y) rfl, _, rfl, fun hx => ?_, ?_, onlyV_writeWithFlag x _ _ s⟩
  · rw [getV_writeWithFlag_result hx, BitVec.toNat_add]
  · rw [getV_writeWithFlag_flag, flagByte_carryOut]

/-- Settles O31: the difference of V[X] and V[Y], and its no-borrow flag. -/
theorem subtractRegisters : Obligations.SubtractRegisters := by
  intro x y s
  refine ⟨decodeOfEncode (.subReg x y) rfl, _, rfl, fun hx => ?_, ?_, onlyV_writeWithFlag x _ _ s⟩
  · rw [getV_writeWithFlag_result hx, toNat_byte_sub]
  · rw [getV_writeWithFlag_flag, flagByte_noBorrow]

/-- Settles O32: as O31 with the operands in the other order. -/
theorem subtractReversed : Obligations.SubtractReversed := by
  intro x y s
  refine ⟨decodeOfEncode (.subnReg x y) rfl, _, rfl, fun hx => ?_, ?_, onlyV_writeWithFlag x _ _ s⟩
  · rw [getV_writeWithFlag_result hx, toNat_byte_sub]
  · rw [getV_writeWithFlag_flag, flagByte_noBorrow]

/-- Settles O33: half the source, and its bit 0. -/
theorem shiftRight : Obligations.ShiftRight := by
  refine ⟨rfl, rfl, fun x y s => ?_⟩
  refine ⟨decodeOfEncode (.shrReg x y) rfl, _, rfl, fun hx => ?_, ?_, onlyV_writeWithFlag x _ _ s⟩
  · rw [getV_writeWithFlag_result hx, BitVec.toNat_ushiftRight, Nat.shiftRight_one, shiftSource]
  · rw [getV_writeWithFlag_flag, toNat_flagByte_outRight, shiftSource]

/-- Settles O34: twice the source modulo 256, and its bit 7. -/
theorem shiftLeft : Obligations.ShiftLeft := by
  refine ⟨rfl, rfl, fun x y s => ?_⟩
  refine ⟨decodeOfEncode (.shlReg x y) rfl, _, rfl, fun hx => ?_, ?_, onlyV_writeWithFlag x _ _ s⟩
  · rw [getV_writeWithFlag_result hx, BitVec.toNat_shiftLeft, Nat.shiftLeft_eq, pow_one, shiftSource]
  · rw [getV_writeWithFlag_flag, toNat_flagByte_outLeft, shiftSource]

end Sys2Proof.Machine
end

section
/-! PROOFS. The statements of spec/43_index_memory.md: the three writers of I that touch nothing else (R141 to R143),
the digits of `FX33` (R144), and the bulk moves of `FX55` and `FX65`, each read off its loop and then off the advance of
I (R145, R146). The bytes of one instruction lie at different addresses, although each wraps on its own (R51). Their
words decode by the round trip of O1. -/

namespace Sys2Proof.Machine

/-! ### The index register -/

theorem onlyI_setI (s : State) (a : Word) : OnlyI s (s.setI a) := ⟨rfl, State.readByte_setI s a⟩

theorem toNat_widen (b : Byte) : (widen b).toNat = b.toNat := BitVec.toNat_setWidth_of_le (by decide)

/-- Five times a byte is below 2^16, so the product of `FX29` never wraps (R143). -/
theorem toNat_widen_mul_five (b : Byte) : (widen b * 5).toNat = b.toNat * 5 := by
  have hlt : b.toNat * 5 < 2 ^ 16 := by omega
  rw [BitVec.toNat_mul, toNat_widen]
  exact Nat.mod_eq_of_lt hlt

/-- Settles O35: the operand is NNN zero-extended. -/
theorem setIndex : Obligations.SetIndex :=
  fun nnn s => ⟨decodeOfEncode (.ldI nnn) rfl, _, rfl, toNat_target nnn, onlyI_setI s _⟩

/-- Settles O36: the 16-bit sum is the sum modulo 2^16. -/
theorem addToIndex : Obligations.AddToIndex := by
  intro x s
  refine ⟨decodeOfEncode (.addI x) rfl, _, rfl, ?_, onlyI_setI s _⟩
  rw [State.setI_i, BitVec.toNat_add, toNat_widen]

/-- Settles O37: the 16-bit product is the exact one. -/
theorem fontCharacterAddress : Obligations.FontCharacterAddress :=
  fun x s => ⟨decodeOfEncode (.ldF x) rfl, _, rfl, toNat_widen_mul_five (s.getV x), onlyI_setI s _⟩

/-! ### The addresses of the data bytes -/

/-- Two data bytes less than the memory's size apart never share an address. -/
theorem addr_dataAddr_ne (s : State) {j k : Nat} (hj : j < 4096) (hk : k < 4096) (hne : j ≠ k) :
    addr (dataAddr s j) ≠ addr (dataAddr s k) := by
  unfold addr dataAddr
  omega

theorem State.readByte_writeByte_same (s : State) (a : Nat) (b : Byte) : (s.writeByte a b).readByte a = b := by
  rw [State.readByte_writeByte, if_pos rfl]

theorem State.readByte_writeByte_other (s : State) {a c : Nat} (b : Byte) (h : addr c ≠ addr a) :
    (s.writeByte a b).readByte c = s.readByte c := by
  rw [State.readByte_writeByte, if_neg h]

/-! ### The decimal digits -/

/-- Settles O38: each digit is kept by the stores after it, whose addresses differ from its own. -/
theorem storeBcdDigits : Obligations.StoreBcdDigits := by
  intro x s
  have h01 : addr (dataAddr s 0) ≠ addr (dataAddr s 1) := addr_dataAddr_ne s (by decide) (by decide) (by decide)
  have h02 : addr (dataAddr s 0) ≠ addr (dataAddr s 2) := addr_dataAddr_ne s (by decide) (by decide) (by decide)
  have h12 : addr (dataAddr s 1) ≠ addr (dataAddr s 2) := addr_dataAddr_ne s (by decide) (by decide) (by decide)
  refine ⟨decodeOfEncode (.ldB x) rfl, _, rfl, ?_, ?_, ?_, fun a ha => ?_, rfl⟩
  · rw [State.readByte_writeByte_other _ _ h02, State.readByte_writeByte_other _ _ h01, State.readByte_writeByte_same]
    exact BitVec.toNat_udiv
  · rw [State.readByte_writeByte_other _ _ h12, State.readByte_writeByte_same, BitVec.toNat_umod, BitVec.toNat_udiv]
    rfl
  · rw [State.readByte_writeByte_same, BitVec.toNat_umod]
    rfl
  · obtain ⟨h0, h1, h2⟩ :
        addr a ≠ addr (dataAddr s 0) ∧ addr a ≠ addr (dataAddr s 1) ∧ addr a ≠ addr (dataAddr s 2) := by
      simpa using ha
    rw [State.readByte_writeByte_other _ _ h2, State.readByte_writeByte_other _ _ h1,
      State.readByte_writeByte_other _ _ h0]

/-! ### The advance of I -/

/-- I after a bulk move, modulo 2^16 (R12, R27). -/
theorem toNat_advanceI_i (x : Nibble) (s : State) :
    (advanceI x s).i.toNat =
      if (quirksOf s.variant).incI then (s.i.toNat + x.toNat + 1) % 65536 else s.i.toNat := by
  have hx : (x.setWidth 16).toNat = x.toNat := BitVec.toNat_setWidth_of_le (by decide)
  unfold advanceI
  split
  · rw [State.setI_i, BitVec.toNat_add, BitVec.toNat_add, hx]
    exact Nat.mod_add_mod _ _ _
  · rfl

theorem readByte_advanceI (x : Nibble) (s : State) (a : Nat) : (advanceI x s).readByte a = s.readByte a := by
  rw [advanceI_eq]
  rfl

theorem getV_advanceI (x : Nibble) (s : State) (z : Nibble) : (advanceI x s).getV z = s.getV z := by
  rw [advanceI_eq]
  rfl

/-! ### The registers stored -/

/-- `storeFirst n` leaves `V[k]` in byte `k` for every `k` below `n`: the later stores go to other addresses (R145). -/
theorem readByte_storeFirst_of_lt {n : Nat} (s : State) (hn : n ≤ 4096) {k : Nat} (hk : k < n) :
    (storeFirst n s).readByte (dataAddr s k) = s.getV (BitVec.ofNat 4 k) := by
  induction n with
  | zero => exact absurd hk (Nat.not_lt_zero k)
  | succ n ih =>
    by_cases hkn : k = n
    · subst hkn
      exact State.readByte_writeByte_same _ _ _
    · have hne : addr (dataAddr s k) ≠ addr (dataAddr s n) := addr_dataAddr_ne s (by omega) hn hkn
      exact (State.readByte_writeByte_other _ _ hne).trans (ih (by omega) (by omega))

/-- `storeFirst n` stores to the addresses of the data bytes below `n` and to no other. -/
theorem sameBytesOutside_storeFirst (n : Nat) (s : State) :
    SameBytesOutside ((List.range n).map fun k => addr (dataAddr s k)) s (storeFirst n s) := by
  induction n with
  | zero => exact fun _ _ => rfl
  | succ n ih =>
    intro a ha
    rw [List.range_succ, List.map_append, List.mem_append, not_or] at ha
    obtain ⟨hbelow, hlast⟩ := ha
    exact (State.readByte_writeByte_other _ _ (List.ne_of_not_mem_cons hlast)).trans (ih a hbelow)

theorem toNat_advanceI_storeFirst_i (x : Nibble) (n : Nat) (s : State) :
    (advanceI x (storeFirst n s)).i.toNat =
      if (quirksOf s.variant).incI then (s.i.toNat + x.toNat + 1) % 65536 else s.i.toNat := by
  rw [toNat_advanceI_i, storeFirst_eq]

theorem advanceI_storeFirst_eq (x : Nibble) (n : Nat) (s : State) :
    advanceI x (storeFirst n s) =
      { s with mem := (advanceI x (storeFirst n s)).mem, i := (advanceI x (storeFirst n s)).i } := by
  rw [advanceI_eq, storeFirst_eq]

/-- Settles O39: the loop stores the registers, and the advance of I keeps every byte. -/
theorem registerDump : Obligations.RegisterDump := by
  refine ⟨rfl, rfl, fun x s => ?_⟩
  refine ⟨decodeOfEncode (.storeRegs x) rfl, _, rfl, fun z hz => ?_, fun a ha => ?_,
    toNat_advanceI_storeFirst_i x _ s, advanceI_storeFirst_eq x _ s⟩
  · rw [readByte_advanceI, readByte_storeFirst_of_lt s (by omega) (Nat.lt_succ_of_le hz), BitVec.ofNat_toNat,
      BitVec.setWidth_eq]
  · rw [readByte_advanceI]
    exact sameBytesOutside_storeFirst (x.toNat + 1) s a ha

/-! ### The registers loaded -/

/-- `loadFirst n` leaves byte `z` in `V[z]` for every `z` below `n`: the later loads write other registers (R146). -/
theorem getV_loadFirst_of_lt {n : Nat} (s : State) (hn : n ≤ 16) {z : Nibble} (hz : z.toNat < n) :
    (loadFirst n s).getV z = s.readByte (dataAddr s z.toNat) := by
  induction n with
  | zero => exact absurd hz (Nat.not_lt_zero _)
  | succ n ih =>
    have hnat : (BitVec.ofNat 4 n).toNat = n := Nat.mod_eq_of_lt hn
    rw [loadFirst, State.getV_setV]
    by_cases hzn : z = BitVec.ofNat 4 n
    · rw [if_pos hzn, hzn, hnat, dataAddr]
    · have hne : z.toNat ≠ n := fun h => hzn (BitVec.eq_of_toNat_eq (h.trans hnat.symm))
      rw [if_neg hzn, ih (by omega) (by omega)]

theorem toNat_advanceI_loadFirst_i (x : Nibble) (n : Nat) (s : State) :
    (advanceI x (loadFirst n s)).i.toNat =
      if (quirksOf s.variant).incI then (s.i.toNat + x.toNat + 1) % 65536 else s.i.toNat := by
  rw [toNat_advanceI_i, loadFirst_eq]

theorem advanceI_loadFirst_eq (x : Nibble) (n : Nat) (s : State) :
    advanceI x (loadFirst n s) =
      { s with v := (advanceI x (loadFirst n s)).v, i := (advanceI x (loadFirst n s)).i } := by
  rw [advanceI_eq, loadFirst_eq]

theorem sameBytes_advanceI_loadFirst (x : Nibble) (n : Nat) (s : State) :
    SameBytes s (advanceI x (loadFirst n s)) := by
  intro a
  rw [readByte_advanceI, loadFirst_eq]
  rfl

/-- Settles O40: the loop loads the registers 0 to X and no other, and the advance of I keeps them. -/
theorem registerLoad : Obligations.RegisterLoad := by
  refine ⟨rfl, rfl, fun x s => ?_⟩
  refine ⟨decodeOfEncode (.loadRegs x) rfl, _, rfl, fun z => ?_, toNat_advanceI_loadFirst_i x _ s,
    advanceI_loadFirst_eq x _ s, sameBytes_advanceI_loadFirst x _ s⟩
  rw [getV_advanceI]
  split
  · exact getV_loadFirst_of_lt s x.isLt (Nat.lt_succ_of_le ‹_›)
  · exact getV_loadFirst_of_le (x.toNat + 1) s z (Nat.lt_of_not_le ‹_›)

end Sys2Proof.Machine
end

section
/-! PROOFS. The statements of spec/44_display.md: the clear of `00E0` (R161), and the XOR blit of `DXYN` (R162, R163).
A stage of the blit paints an area: it toggles the pixels of the area and no other, and its hit says whether one of them
was on. Stages over disjoint areas compose, so the areas of the bits add up to those of the rows and of the sprite. -/

namespace Sys2Proof.Machine

/-! ### Painting an area of the grid -/

/-- From `k` to `k'` the pixels of `area` are toggled, and a pixel of `area` that was on is a hit. -/
structure Paints (area : Nat → Nat → Bool) (k k' : Canvas) : Prop where
  pixel_eq : ∀ px py, pixel k'.disp px py = (pixel k.disp px py ^^ area px py)
  hit_iff : k'.hit = true ↔ k.hit = true ∨ ∃ px py, area px py = true ∧ pixel k.disp px py = true

theorem Paints.congr {a b : Nat → Nat → Bool} {k k' : Canvas} (h : Paints a k k') (hab : ∀ px py, b px py = a px py) :
    Paints b k k' := by
  rwa [funext₂ hab]

theorem paints_refl (k : Canvas) : Paints (fun _ _ => false) k k where
  pixel_eq _ _ := (Bool.xor_false _).symm
  hit_iff := by simp

/-- The second stage finds the pixels of its own area as they were before the first one. -/
theorem Paints.trans {a b : Nat → Nat → Bool} {k k' k'' : Canvas} (h : Paints a k k') (h' : Paints b k' k'')
    (hdisj : ∀ px py, b px py = true → a px py = false) : Paints (fun px py => a px py || b px py) k k'' where
  pixel_eq px py := by
    rw [h'.pixel_eq, h.pixel_eq, Bool.xor_assoc]
    cases hb : b px py with
    | false => rw [Bool.xor_false, Bool.or_false]
    | true => rw [hdisj px py hb, Bool.false_xor, Bool.false_or]
  hit_iff := by
    have hkept : ∀ px py, b px py = true → pixel k'.disp px py = pixel k.disp px py := fun px py hb => by
      rw [h.pixel_eq, hdisj px py hb, Bool.xor_false]
    have hsecond : (∃ px py, b px py = true ∧ pixel k'.disp px py = true) ↔
        ∃ px py, b px py = true ∧ pixel k.disp px py = true :=
      exists₂_congr fun px py => and_congr_right fun hb => by rw [hkept px py hb]
    simp only [h'.hit_iff, h.hit_iff, hsecond, or_assoc, Bool.or_eq_true, or_and_right, exists_or]

/-! ### The area of a bit, of a row and of a sprite -/

/-- The pixel of column `c` of a sprite row at (x0, y), where its bit is set and it is not clipped (R162). -/
def bitArea (row : Byte) (x0 y c px py : Nat) : Bool :=
  decide (px = x0 + c ∧ py = y ∧ x0 + c < 64 ∧ row.getLsbD (7 - c) = true)

/-- The pixels of the first `m` columns of a sprite row. -/
def rowArea (row : Byte) (x0 y m px py : Nat) : Bool :=
  decide (py = y ∧ x0 ≤ px ∧ px < x0 + m ∧ px < 64 ∧ row.getLsbD (7 - (px - x0)) = true)

/-- The pixels of the rows of a sprite from (x0, y) down. -/
def spriteArea (x0 y : Nat) (rows : List Byte) (px py : Nat) : Bool :=
  decide (y ≤ py ∧ py < 32) && rowArea (rows.getD (py - y) 0) x0 py 8 px py

theorem rowArea_zero (row : Byte) (x0 y px py : Nat) : rowArea row x0 y 0 px py = false :=
  decide_eq_false (by omega)

theorem rowArea_of_bitArea {row : Byte} {x0 y c px py : Nat} (h : bitArea row x0 y c px py = true) :
    rowArea row x0 y c px py = false := by
  have hbit := of_decide_eq_true h
  exact decide_eq_false (by omega)

theorem rowArea_succ (row : Byte) (x0 y m px py : Nat) :
    rowArea row x0 y (m + 1) px py = (rowArea row x0 y m px py || bitArea row x0 y m px py) := by
  unfold rowArea bitArea
  by_cases hpx : px = x0 + m
  · subst hpx
    simp [and_comm]
  · have hlt : px < x0 + (m + 1) ↔ px < x0 + m := by omega
    simp [hpx, hlt]

theorem rowArea_of_ne {row : Byte} {x0 y m px py : Nat} (h : py ≠ y) : rowArea row x0 y m px py = false :=
  decide_eq_false fun hrow => h hrow.1

theorem spriteArea_nil (x0 y px py : Nat) : spriteArea x0 y [] px py = false := by
  simp [spriteArea, rowArea]

/-- Above its first row and below the bottom edge a sprite has no pixels. -/
theorem spriteArea_of_outside {x0 y : Nat} {rows : List Byte} {px py : Nat} (h : ¬ (y ≤ py ∧ py < 32)) :
    spriteArea x0 y rows px py = false := by
  rw [spriteArea, decide_eq_false h, Bool.false_and]

theorem spriteArea_cons (x0 y : Nat) (row : Byte) (rows : List Byte) (px py : Nat) (hy : y < 32) :
    spriteArea x0 y (row :: rows) px py = (rowArea row x0 y 8 px py || spriteArea x0 (y + 1) rows px py) := by
  obtain hlt | rfl | hgt := Nat.lt_trichotomy py y
  · rw [spriteArea_of_outside (by omega), spriteArea_of_outside (by omega), rowArea_of_ne (by omega), Bool.or_false]
  · rw [spriteArea_of_outside (y := py + 1) (by omega), Bool.or_false, spriteArea, decide_eq_true ⟨le_rfl, hy⟩,
      Bool.true_and, Nat.sub_self, List.getD_cons_zero]
  · obtain ⟨d, rfl⟩ := Nat.exists_eq_add_of_lt hgt
    rw [rowArea_of_ne (by omega), Bool.false_or, spriteArea, spriteArea, show y + d + 1 - y = d + 1 by omega,
      show y + d + 1 - (y + 1) = d by omega, List.getD_cons_succ]
    exact congrArg (· && _) (decide_eq_decide.mpr (by omega))

/-! ### What each stage of the blit paints -/

theorem paints_drawBit (row : Byte) (x0 : Nat) {y : Nat} (k : Canvas) (c : Nat) (hy : y < 32) :
    Paints (bitArea row x0 y c) k (drawBit row x0 y k c) where
  pixel_eq px py := pixel_drawBit row x0 y k c px py hy
  hit_iff := by
    simp only [hit_drawBit, bitArea, Bool.or_eq_true, Bool.and_eq_true, decide_eq_true_eq]
    refine or_congr_right ⟨fun ⟨hbit, hon⟩ => ⟨_, _, ⟨rfl, rfl, hbit⟩, hon⟩, ?_⟩
    rintro ⟨_, _, ⟨rfl, rfl, hbit⟩, hon⟩
    exact ⟨hbit, hon⟩

/-- Column by column: the next bit's pixel lies right of those drawn. -/
theorem paints_drawBits (row : Byte) (x0 : Nat) {y : Nat} (k : Canvas) (m : Nat) (hy : y < 32) :
    Paints (rowArea row x0 y m) k ((List.range m).foldl (drawBit row x0 y) k) := by
  induction m with
  | zero => exact (paints_refl k).congr (rowArea_zero row x0 y)
  | succ m ih =>
    rw [List.range_succ, List.foldl_append]
    exact (ih.trans (paints_drawBit row x0 _ m hy) fun _ _ => rowArea_of_bitArea).congr (rowArea_succ row x0 y m)

/-- Row by row: the rows still to come lie below the one drawn, and a row past the bottom edge paints nothing. -/
theorem paints_drawRows (x0 y : Nat) (rows : List Byte) (k : Canvas) :
    Paints (spriteArea x0 y rows) k (drawRows x0 y rows k) := by
  induction rows generalizing y k with
  | nil => exact (paints_refl k).congr (spriteArea_nil x0 y)
  | cons row rows ih =>
    rw [drawRows]
    split
    · rename_i hy
      refine ((paints_drawBits row x0 k 8 hy).trans (ih (y + 1) _) fun px py hbelow => ?_).congr
        fun px py => spriteArea_cons x0 y row rows px py hy
      refine rowArea_of_ne ?_
      rintro rfl
      rw [spriteArea_of_outside (by omega)] at hbelow
      cases hbelow
    · rename_i hy
      exact (paints_refl k).congr fun _ _ => spriteArea_of_outside (by omega)

/-! ### The sprite of the state -/

theorem getD_spriteBytes (s : State) (n : Nibble) (r : Nat) :
    (spriteBytes s n).getD r 0 = if r < n.toNat then s.readByte (dataAddr s r) else 0 := by
  unfold spriteBytes
  split <;> simp [*]

theorem spriteArea_eq_true_iff {x0 y0 px py : Nat} {rows : List Byte} :
    spriteArea x0 y0 rows px py = true ↔ (y0 ≤ py ∧ py < 32) ∧ (x0 ≤ px ∧ px < x0 + 8 ∧ px < 64) ∧
      (rows.getD (py - y0) 0).getLsbD (7 - (px - x0)) = true := by
  simp only [spriteArea, rowArea, Bool.and_eq_true, decide_eq_true_eq, true_and, and_assoc]

theorem spriteCovers_eq_true_iff {s : State} {x y n : Nibble} {px py : Nat} :
    spriteCovers s x y n px py = true ↔
      (spriteColumn s x ≤ px ∧ px < spriteColumn s x + 8) ∧ (spriteRow s y ≤ py ∧ py < spriteRow s y + n.toNat) ∧
      (s.readByte (dataAddr s (py - spriteRow s y))).getLsbD (7 - (px - spriteColumn s x)) = true := by
  simp only [spriteCovers, spriteColumn, spriteRow, dataAddr, Bool.and_eq_true, decide_eq_true_eq, and_assoc]

/-- The area that `DXYN` paints is what the sprite covers of the grid. -/
theorem spriteArea_spriteBytes (x y n : Nibble) (s : State) (px py : Nat) :
    spriteArea (spriteColumn s x) (spriteRow s y) (spriteBytes s n) px py =
      (decide (px < 64 ∧ py < 32) && spriteCovers s x y n px py) := by
  rw [Bool.eq_iff_iff, Bool.and_eq_true, decide_eq_true_eq, spriteArea_eq_true_iff, spriteCovers_eq_true_iff,
    getD_spriteBytes]
  by_cases hrow : py - spriteRow s y < n.toNat
  · rw [if_pos hrow]
    exact ⟨fun ⟨hy, hx, hbit⟩ => ⟨by omega, by omega, by omega, hbit⟩,
      fun ⟨hgrid, hx, hy, hbit⟩ => ⟨by omega, by omega, hbit⟩⟩
  · rw [if_neg hrow, BitVec.ofNat_eq_ofNat, BitVec.getLsbD_zero]
    exact ⟨fun ⟨_, _, hbit⟩ => (Bool.false_ne_true hbit).elim, fun ⟨_, _, hy, _⟩ => by omega⟩

theorem paints_drawSprite (x y n : Nibble) (s : State) :
    Paints (fun px py => decide (px < 64 ∧ py < 32) && spriteCovers s x y n px py)
      { disp := s.disp, hit := false } (drawSprite x y n s) :=
  (paints_drawRows _ _ _ _).congr fun px py => (spriteArea_spriteBytes x y n s px py).symm

theorem hit_drawSprite_iff (x y n : Nibble) (s : State) :
    (drawSprite x y n s).hit = true ↔
      ∃ px py, px < 64 ∧ py < 32 ∧ spriteCovers s x y n px py = true ∧ pixel s.disp px py = true := by
  rw [(paints_drawSprite x y n s).hit_iff]
  simp [and_assoc]

theorem pixel_drawSprite (x y n : Nibble) (s : State) {px py : Nat} (hpx : px < 64) (hpy : py < 32) :
    pixel (drawSprite x y n s).disp px py = (pixel s.disp px py ^^ spriteCovers s x y n px py) := by
  rw [(paints_drawSprite x y n s).pixel_eq, decide_eq_true ⟨hpx, hpy⟩, Bool.true_and]

/-- What a sprite covers depends on its coordinate registers, on I and on the bytes. -/
theorem spriteCovers_congr {s t : State} {x y : Nibble} (hx : t.getV x = s.getV x) (hy : t.getV y = s.getV y)
    (hi : t.i = s.i) (hbytes : SameBytes s t) (n : Nibble) : spriteCovers t x y n = spriteCovers s x y n := by
  have hread : ∀ a, t.readByte a = s.readByte a := hbytes
  funext px py
  simp only [spriteCovers, hx, hy, hi, hread]

/-! ### The instructions -/

/-- Settles O41: the one effect is the display with every pixel off. -/
theorem clearDisplay : Obligations.ClearDisplay :=
  fun _ => ⟨decodeOfEncode .cls rfl, _, rfl, fun x y _ _ => pixel_off x y, rfl, fun _ => rfl⟩

/-- Settles O42: the rows paint what the sprite covers of the grid, and the flag is the one register written. -/
theorem drawXorsTheSprite : Obligations.DrawXorsTheSprite :=
  fun x y n s => ⟨decodeOfEncode (.drw x y n) rfl, _, rfl, fun _ _ => pixel_drawSprite x y n s,
    fun z hz => State.getV_setV_other _ 0xF z _ hz, rfl, fun _ => rfl⟩

theorem getV_flag_of_execDrw {x y n : Nibble} {s t : State} (h : execDrw x y n s = .next t) :
    t.getV 0xF = flagByte (drawSprite x y n s).hit := by
  cases h
  exact State.getV_setV_same _ 0xF _

/-- Settles O43: the flag register holds the hit of the whole sprite. -/
theorem drawSetsTheCollisionFlag : Obligations.DrawSetsTheCollisionFlag := by
  intro x y n s t h
  rw [getV_flag_of_execDrw h]
  refine ⟨fun hon => ?_, fun hoff => ?_⟩
  · rw [(hit_drawSprite_iff x y n s).mpr hon]
    rfl
  · have hnone : (drawSprite x y n s).hit = false := by
      refine Bool.eq_false_iff.mpr fun hhit => ?_
      obtain ⟨px, py, hpx, hpy, hcovers, hpixel⟩ := (hit_drawSprite_iff x y n s).mp hhit
      rw [hoff px py hpx hpy hcovers] at hpixel
      cases hpixel
    rw [hnone]
    rfl

/-- Settles O44: the first draw changes neither the coordinates nor I nor a byte, so the second one covers the same
pixels and XORs them back. -/
theorem drawTwiceRestoresTheDisplay : Obligations.DrawTwiceRestoresTheDisplay := by
  intro x y n s hx hy
  obtain ⟨-, t, ht, hpixel, hgetV, hframe, hbytes⟩ := drawXorsTheSprite x y n s
  obtain ⟨-, u, hu, hpixel', -⟩ := drawXorsTheSprite x y n t
  have hcovers : spriteCovers t x y n = spriteCovers s x y n :=
    spriteCovers_congr (hgetV x hx) (hgetV y hy) (by rw [hframe]) hbytes n
  refine ⟨t, u, ht, hu, Display.ext_pixel _ _ fun px py hpx hpy => ?_⟩
  rw [hpixel' px py hpx hpy, hcovers, hpixel px py hpx hpy, Bool.xor_assoc, Bool.xor_self, Bool.xor_false]

end Sys2Proof.Machine
end

section
/-! PROOFS. The statements of spec/45_keypad_timers.md: the skips on a key (R170 to R172), the wait for a press and its
release (R173) with the runs that stall in it and complete it, and the timers, set by an instruction and counted down
by ticks (R174 to R176, R200). The words of the skips and of the timer instructions decode by the round trip of O1. -/

namespace Sys2Proof.Machine

/-! ### The keypad -/

/-- A key write and a key read (R206). -/
theorem keyDown_setKey (k : KeyCode) (down : Bool) (s : State) (j : KeyCode) :
    (setKey k down s).keyDown j = if j = k then down else s.keyDown j := by
  unfold State.keyDown setKey
  simp only [Vector.getElem_set, ← BitVec.toNat_inj, eq_comm]

theorem lowestDown_eq_none {s : State} (h : ∀ k, s.keyDown k = false) : lowestDown s = none := by
  simp [lowestDown, h]

/-- The search of `lowestDown` stops at position `k` of the key codes when no code before it names a key that is
down. -/
theorem lowestDown_eq_some {s : State} {k : KeyCode} (hdown : s.keyDown k = true)
    (hlower : ∀ j : KeyCode, j.toNat < k.toNat → s.keyDown j = false) : lowestDown s = some k := by
  refine List.find?_eq_some_iff_getElem.mpr ⟨hdown, k.toNat, by simpa using k.isLt, by simp, fun i hi => ?_⟩
  have hcode : (BitVec.ofNat 4 i).toNat = i := by
    rw [BitVec.toNat_ofNat, Nat.mod_eq_of_lt (hi.trans k.isLt)]
  simpa using hlower (BitVec.ofNat 4 i) (hcode.symm ▸ hi)

/-- The low four bits of `V[X]` as a remainder (R170). -/
theorem keyOperand_eq (s : State) (x : Nibble) : keyOperand s x = BitVec.ofNat 4 ((s.getV x).toNat % 16) := by
  refine BitVec.eq_of_toNat_eq ?_
  simp [keyOperand]

theorem skipIf_pc (c : Bool) (s : State) : (skipIf c s).pc = if c then s.pc + 2 else s.pc := by
  rw [skipIf_eq, State.setPc_pc]

theorem skipIf_not_pc (c : Bool) (s : State) : (skipIf (!c) s).pc = if c then s.pc else s.pc + 2 := by
  cases c <;> rfl

/-- Settles O45: both are a conditional skip on the key that `V[X]` names. -/
theorem skipOnKey : Obligations.SkipOnKey := by
  intro x s
  refine ⟨decodeOfEncode (.skp x) rfl, decodeOfEncode (.sknp x) rfl, ?_⟩
  rw [← keyOperand_eq]
  exact ⟨⟨_, rfl, skipIf_pc _ s, onlyPc_skipIf _ s⟩, ⟨_, rfl, skipIf_not_pc _ s, onlyPc_skipIf _ s⟩⟩

/-! ### The wait for a key -/

/-- Settles O46: the four cases of the wait, the search for the lowest key resolved. -/
theorem waitForKey : Obligations.WaitForKey := by
  intro x s
  refine ⟨fun hwait hup => ?_, fun k hwait hdown hlower => ?_, fun k hwait hdown => ?_, fun k hwait hup => ?_⟩
  · exact execLdVxK_of_noKey x s hwait (lowestDown_eq_none hup)
  · exact execLdVxK_of_press x s k hwait (lowestDown_eq_some hdown hlower)
  · exact execLdVxK_of_held x s k hwait hdown
  · refine ⟨_, execLdVxK_of_release x s k hwait hup, ?_, fun z hz => ?_, rfl, fun _ => rfl⟩
    · rw [State.getV_setV_same]
      exact BitVec.toNat_setWidth_of_le (by decide)
    · exact State.getV_setV_other _ x z _ hz

/-- With nothing to come from the host and no key down, one step of `FX0A` changes nothing: the retreat of PC undoes
the advance of its fetch. -/
theorem step_of_idle_wait {x : Nibble} {s : State} (hdec : decode (fetch s) = .ok (.ldVxK x))
    (hsched : s.schedule = []) (hwait : s.waitKey = none) (hup : ∀ k, s.keyDown k = false) : step s = .next s := by
  have hturn : hostTurn s = s := by rw [hostTurn, hsched]
  obtain ⟨hstall, -⟩ := waitForKey x { s with pc := s.pc + 2 }
  rw [step_of_decode_ok hdec, hturn, hstall hwait hup]
  simp only [BitVec.add_sub_cancel]

/-- Settles O47, by induction on the number of steps: each one leads back to the same state. -/
theorem waitStallsWithoutAKey : Obligations.WaitStallsWithoutAKey := by
  intro x s n hdec hsched hwait hup
  induction n with
  | zero => rfl
  | succ n ih => rw [runSteps_succ_of_next n (step_of_idle_wait hdec hsched hwait hup), ih]

/-- The host's turn when its next batch is one key write. -/
theorem hostTurn_of_setKey {k : KeyCode} {down : Bool} {rest : List (List HostAction)} {s : State}
    (h : s.schedule = [.setKey k down] :: rest) : hostTurn s = setKey k down { s with schedule := rest } := by
  rw [hostTurn, h]
  rfl

/-- The press, with no other key down: the step records the key and leaves PC at the opcode. -/
theorem step_of_press {x : Nibble} {k : KeyCode} {rest : List (List HostAction)} {s : State}
    (hdec : decode (fetch s) = .ok (.ldVxK x)) (hsched : s.schedule = [.setKey k true] :: rest)
    (hwait : s.waitKey = none) (hup : ∀ j, s.keyDown j = false) :
    step s = .next { setKey k true { s with schedule := rest } with waitKey := some k } := by
  have hkey : ∀ j, (setKey k true s).keyDown j = if j = k then true else s.keyDown j := keyDown_setKey k true s
  have hlower : ∀ j : KeyCode, j.toNat < k.toNat → (setKey k true s).keyDown j = false := by
    intro j hj
    have hne : j ≠ k := fun h => Nat.ne_of_lt hj (congrArg BitVec.toNat h)
    rw [hkey, if_neg hne, hup]
  obtain ⟨-, hpress, -⟩ := waitForKey x { setKey k true { s with schedule := rest } with pc := s.pc + 2 }
  rw [step_of_decode_ok hdec, hostTurn_of_setKey hsched, hpress k hwait ((hkey k).trans (if_pos rfl)) hlower]
  simp only [BitVec.add_sub_cancel]
  rfl

/-- The release: the step writes the key's code, ends the wait and lets PC advance. -/
theorem step_of_release {x : Nibble} {k : KeyCode} {rest : List (List HostAction)} {s : State}
    (hdec : decode (fetch s) = .ok (.ldVxK x)) (hsched : s.schedule = [.setKey k false] :: rest)
    (hwait : s.waitKey = some k) :
    ∃ t, step s = .next t ∧ t.pc = s.pc + 2 ∧ t.waitKey = none ∧ (t.getV x).toNat = k.toNat ∧
      ∀ z, z ≠ x → t.getV z = s.getV z := by
  have hup : (setKey k false s).keyDown k = false := (keyDown_setKey k false s k).trans (if_pos rfl)
  obtain ⟨-, -, -, hrelease⟩ := waitForKey x { setKey k false { s with schedule := rest } with pc := s.pc + 2 }
  obtain ⟨t, hexec, hx, hother, hframe, -⟩ := hrelease k hwait hup
  refine ⟨t, ?_, by rw [hframe], by rw [hframe], hx, hother⟩
  rw [step_of_decode_ok hdec, hostTurn_of_setKey hsched, hexec]

/-- Settles O48: the press leaves memory and PC, so the next step fetches the same opcode and meets the release. -/
theorem pressAndReleaseCompleteTheWait : Obligations.PressAndReleaseCompleteTheWait := by
  intro x k rest s hdec hsched hwait hup
  obtain ⟨u, hstep, hu⟩ := step_of_release (s :=
    { setKey k true { s with schedule := [.setKey k false] :: rest } with waitKey := some k }) hdec rfl rfl
  exact ⟨_, u, step_of_press hdec hsched hwait hup, rfl, rfl, fun _ => rfl, hstep, hu⟩

/-! ### The timers -/

/-- Settles O49: the one effect is the write of DT's value. -/
theorem timerGet : Obligations.TimerGet :=
  fun x s => ⟨decodeOfEncode (.ldVxDt x) rfl, _, rfl, State.getV_setV_same s x s.dt, onlyV_setV s x s.dt⟩

/-- The subtraction of natural numbers is floored at 0 as the tick is (R200). -/
theorem toNat_countDown (b : Byte) : (countDown b).toNat = b.toNat - 1 := by
  unfold countDown
  split
  next h => rw [h]; rfl
  next h => bv_omega

/-- Every tick counts both timers down, so they follow the iterates of `countDown`. -/
theorem timers_iterate_tick (n : Nat) (s : State) :
    (tick^[n] s).dt = countDown^[n] s.dt ∧ (tick^[n] s).st = countDown^[n] s.st :=
  ⟨(show Function.Semiconj State.dt tick countDown from fun _ => rfl).iterate_right n s,
    (show Function.Semiconj State.st tick countDown from fun _ => rfl).iterate_right n s⟩

theorem toNat_iterate_countDown (n : Nat) (b : Byte) : (countDown^[n] b).toNat = b.toNat - n := by
  induction n with
  | zero => rfl
  | succ n ih => rw [Function.iterate_succ_apply', toNat_countDown, ih, Nat.sub_sub]

theorem toNat_dt_iterate_tick (n : Nat) (s : State) : (tick^[n] s).dt.toNat = s.dt.toNat - n := by
  rw [(timers_iterate_tick n s).1, toNat_iterate_countDown]

theorem toNat_st_iterate_tick (n : Nat) (s : State) : (tick^[n] s).st.toNat = s.st.toNat - n := by
  rw [(timers_iterate_tick n s).2, toNat_iterate_countDown]

/-- The tone is on while fewer ticks have passed than ST held (R33, R208). -/
theorem tone_iterate_tick (n : Nat) (s : State) : tone (tick^[n] s) = decide (n < s.st.toNat) := by
  rw [tone, toNat_st_iterate_tick]
  exact decide_eq_decide.mpr Nat.sub_pos_iff_lt

theorem toNat_dt_tick_le (s : State) : (tick s).dt.toNat ≤ s.dt.toNat := by
  rw [tick, toNat_countDown]
  exact Nat.sub_le _ 1

/-- Settles O50: `FX15` is the only writer of DT (R31) among the instructions, and a tick decreases it. -/
theorem delayTimerSet : Obligations.DelayTimerSet := by
  refine ⟨toNat_dt_tick_le, fun i s t h hlt => ?_, fun x s => ?_⟩
  · obtain ⟨-, -, -, hdt, -⟩ := writersOfTheOtherElements i s t h
    exact hdt fun heq => Nat.ne_of_gt hlt (congrArg BitVec.toNat heq)
  · exact ⟨decodeOfEncode (.ldDtVx x) rfl, _, rfl, rfl, rfl, fun _ => rfl,
      fun n => toNat_dt_iterate_tick n { s with dt := s.getV x }⟩

/-- Settles O51: the one effect is the write of ST, from which ticks and the tone count. -/
theorem soundTimerSet : Obligations.SoundTimerSet :=
  fun x s => ⟨decodeOfEncode (.ldStVx x) rfl, _, rfl, rfl, rfl, fun _ => rfl, fun n =>
    ⟨toNat_st_iterate_tick n { s with st := s.getV x }, tone_iterate_tick n { s with st := s.getV x }⟩⟩

end Sys2Proof.Machine
end

section
/-! PROOFS. The statements of spec/60_exceptions.md: every Step and every transition goes on (R190), the tick and its
timer law (R200, R201), and the key write (R206). The reference schedule of R207 has its own two parts below. -/

namespace Sys2Proof.Machine

/-! ### No Step stops -/

theorem exec_completes (i : Instr) (s : State) : Completes (exec i s) := by
  obtain ⟨t, ht, -⟩ := exec_effect i s
  exact ⟨t, ht⟩

theorem runOpcode_completes (s : State) : Completes (runOpcode s) := by
  unfold runOpcode
  cases decode (fetch s) with
  | ok i => exact exec_completes i (advancePc s)
  | error why => exact ⟨advancePc s, rfl⟩

/-- Settles O7: every instruction has one of the effects of `ExecEffect`, and an unassigned word is a no-op. -/
theorem stepAlwaysAnswersNextState : Obligations.StepAlwaysAnswersNextState :=
  ⟨fun s => runOpcode_completes (hostTurn s), exec_completes⟩

/-! ### The tick and the key write -/

/-- Settles O52: both timers count down, and the tone is that of one tick. -/
theorem tickDecrementsBothTimers : Obligations.TickDecrementsBothTimers :=
  fun s => ⟨toNat_countDown s.dt, toNat_countDown s.st, rfl, fun _ => rfl, tone_iterate_tick 1 s⟩

/-- Settles O53: the floored difference of natural numbers is the maximum of 0 and the difference of integers. -/
theorem timersAfterTicks : Obligations.TimersAfterTicks := by
  intro n s
  rw [toNat_dt_iterate_tick, toNat_st_iterate_tick]
  omega

/-- No effect of an instruction writes the keypad. -/
theorem exec_keeps_key {i : Instr} {s t : State} (h : exec i s = .next t) : t.key = s.key := by
  cases execEffect_of_exec h <;> rfl

/-- Settles O54: the keypad has no writer among the instructions, and a key write has one entry of it to write. -/
theorem setKeyWritesOneKey : Obligations.SetKeyWritesOneKey :=
  ⟨fun _ _ _ => exec_keeps_key, fun k down s => ⟨keyDown_setKey k down s, rfl, fun _ => rfl⟩⟩

end Sys2Proof.Machine
end

section
/-! PROOFS. Independence of the schedule (log 15): a transition and a host action neither read the schedule nor write
it, so each commutes with a change of it. -/

namespace Sys2Proof.Machine

/-- `s` with the host's actions `q` to come. -/
def State.withSchedule (s : State) (q : List (List HostAction)) : State := { s with schedule := q }

variable (q : List (List HostAction)) (s : State)

/-! ### The operations -/

theorem skipIf_withSchedule (c : Bool) : skipIf c (s.withSchedule q) = (skipIf c s).withSchedule q := by
  cases c <;> rfl

theorem writeLogic_withSchedule (x : Nibble) (r : Byte) :
    writeLogic x r (s.withSchedule q) = (writeLogic x r s).withSchedule q := by
  rw [writeLogic, writeLogic, apply_ite (State.withSchedule · q)]
  rfl

theorem advanceI_withSchedule (x : Nibble) : advanceI x (s.withSchedule q) = (advanceI x s).withSchedule q := by
  rw [advanceI, advanceI, apply_ite (State.withSchedule · q)]
  rfl

theorem storeFirst_withSchedule (n : Nat) : storeFirst n (s.withSchedule q) = (storeFirst n s).withSchedule q := by
  induction n with
  | zero => rfl
  | succ n ih =>
    rw [storeFirst, ih]
    rfl

theorem loadFirst_withSchedule (n : Nat) : loadFirst n (s.withSchedule q) = (loadFirst n s).withSchedule q := by
  induction n with
  | zero => rfl
  | succ n ih =>
    rw [loadFirst, ih]
    rfl

theorem execCall_withSchedule (nnn : Addr12) :
    execCall nnn (s.withSchedule q) = mapNext (·.withSchedule q) (execCall nnn s) := by
  by_cases h : s.sp.val < 12
  · rw [execCall_of_room nnn s h]
    exact execCall_of_room nnn (s.withSchedule q) h
  · cases hp : s.overflow with
    | reject =>
      rw [execCall_of_reject_full nnn s h hp]
      exact execCall_of_reject_full nnn (s.withSchedule q) h hp
    | dropOldest =>
      rw [execCall_of_dropOldest_full nnn s h hp]
      exact execCall_of_dropOldest_full nnn (s.withSchedule q) h hp

theorem execRet_withSchedule : execRet (s.withSchedule q) = mapNext (·.withSchedule q) (execRet s) := by
  by_cases h : 0 < s.sp.val
  · rw [execRet_of_pos s h]
    exact execRet_of_pos (s.withSchedule q) h
  · rw [execRet_of_empty s h]
    exact execRet_of_empty (s.withSchedule q) h

theorem execLdVxK_withSchedule (x : Nibble) :
    execLdVxK x (s.withSchedule q) = mapNext (·.withSchedule q) (execLdVxK x s) := by
  cases hwait : s.waitKey with
  | none =>
    cases hkey : lowestDown s with
    | none =>
      rw [execLdVxK_of_noKey x s hwait hkey]
      exact execLdVxK_of_noKey x (s.withSchedule q) hwait hkey
    | some k =>
      rw [execLdVxK_of_press x s k hwait hkey]
      exact execLdVxK_of_press x (s.withSchedule q) k hwait hkey
  | some k =>
    cases hdown : s.keyDown k with
    | true =>
      rw [execLdVxK_of_held x s k hwait hdown]
      exact execLdVxK_of_held x (s.withSchedule q) k hwait hdown
    | false =>
      rw [execLdVxK_of_release x s k hwait hdown]
      exact execLdVxK_of_release x (s.withSchedule q) k hwait hdown

/-! ### The Step of the core and the host's actions -/

theorem exec_withSchedule (i : Instr) : exec i (s.withSchedule q) = mapNext (·.withSchedule q) (exec i s) := by
  cases i with
  | call nnn => exact execCall_withSchedule q s nnn
  | ret => exact execRet_withSchedule q s
  | ldVxK x => exact execLdVxK_withSchedule q s x
  | seImm | sneImm | seReg | sneReg | skp | sknp => exact congrArg Host.Outcome.next (skipIf_withSchedule q s _)
  | orReg | andReg | xorReg => exact congrArg Host.Outcome.next (writeLogic_withSchedule q s _ _)
  | storeRegs x =>
    refine congrArg Host.Outcome.next ?_
    rw [storeFirst_withSchedule, advanceI_withSchedule]
  | loadRegs x =>
    refine congrArg Host.Outcome.next ?_
    rw [loadFirst_withSchedule, advanceI_withSchedule]
  | cls | drw | sys | jp | jpV0 => rfl
  | ldImm | addImm | rnd | ldReg | addReg | subReg | subnReg | shrReg | shlReg => rfl
  | ldI | addI | ldF | ldB | ldVxDt | ldDtVx | ldStVx => rfl

theorem runOpcode_withSchedule : runOpcode (s.withSchedule q) = mapNext (·.withSchedule q) (runOpcode s) := by
  have hfetch : fetch (s.withSchedule q) = fetch s := rfl
  rw [runOpcode, runOpcode, hfetch]
  cases decode (fetch s) with
  | ok i => exact exec_withSchedule q (advancePc s) i
  | error why => rfl

theorem hostAct_withSchedule (a : HostAction) : hostAct (s.withSchedule q) a = (hostAct s a).withSchedule q := by
  cases a <;> rfl

theorem foldl_hostAct_withSchedule (acts : List HostAction) :
    acts.foldl hostAct (s.withSchedule q) = (acts.foldl hostAct s).withSchedule q := by
  induction acts generalizing s with
  | nil => rfl
  | cons a acts ih => rw [List.foldl_cons, hostAct_withSchedule, ih, List.foldl_cons]

end Sys2Proof.Machine
end

section
/-! PROOFS. The reference schedule of R207 held in the state (log 15, D14): a batch before a Step is the host's actions
and then the Step, an empty batch is none, so a frame's batches run as one frame of the host's loop. -/

namespace Sys2Proof.Machine

/-! ### Steps under a schedule -/

theorem hostTurn_withSchedule_cons (acts : List HostAction) (q : List (List HostAction)) (s : State) :
    hostTurn (s.withSchedule (acts :: q)) = (acts.foldl hostAct s).withSchedule q :=
  foldl_hostAct_withSchedule q s acts

theorem step_withSchedule_cons (acts : List HostAction) (q : List (List HostAction)) (s : State) :
    step (s.withSchedule (acts :: q)) = mapNext (·.withSchedule q) (runOpcode (acts.foldl hostAct s)) := by
  rw [step, hostTurn_withSchedule_cons, runOpcode_withSchedule]

theorem runOpcodes_succ_of_next {s t : State} (n : Nat) (h : runOpcode s = .next t) :
    runOpcodes (n + 1) s = runOpcodes n t := by
  rw [runOpcodes, h]

theorem runOpcodes_completes (n : Nat) (s : State) : Completes (runOpcodes n s) := by
  induction n generalizing s with
  | zero => exact ⟨s, rfl⟩
  | succ n ih =>
    obtain ⟨t, ht⟩ := runOpcode_completes s
    rw [runOpcodes_succ_of_next n ht]
    exact ih t

theorem runOpcodes_withSchedule (q : List (List HostAction)) (n : Nat) (s : State) :
    runOpcodes n (s.withSchedule q) = mapNext (·.withSchedule q) (runOpcodes n s) := by
  induction n generalizing s with
  | zero => rfl
  | succ n ih =>
    obtain ⟨t, ht⟩ := runOpcode_completes s
    have htq : runOpcode (s.withSchedule q) = .next (t.withSchedule q) := by rw [runOpcode_withSchedule, ht, mapNext]
    rw [runOpcodes_succ_of_next n htq, runOpcodes_succ_of_next n ht, ih]

/-- The first batch of the schedule is the host's actions and one Step of the core; `hrun` is the rest of the run. -/
theorem runSteps_withSchedule_cons {n : Nat} {q q' : List (List HostAction)}
    (hrun : ∀ t, runSteps n (t.withSchedule q) = mapNext (·.withSchedule q') (runOpcodes n t))
    (acts : List HostAction) (s : State) :
    runSteps (n + 1) (s.withSchedule (acts :: q)) =
      mapNext (·.withSchedule q') (runOpcodes (n + 1) (acts.foldl hostAct s)) := by
  obtain ⟨t, ht⟩ := runOpcode_completes (acts.foldl hostAct s)
  have hstep : step (s.withSchedule (acts :: q)) = .next (t.withSchedule q) := by
    rw [step_withSchedule_cons, ht, mapNext]
  rw [runSteps_succ_of_next n hstep, runOpcodes_succ_of_next n ht, hrun]

theorem runSteps_withSchedule_replicate (q : List (List HostAction)) (n : Nat) (s : State) :
    runSteps n (s.withSchedule (List.replicate n [] ++ q)) = mapNext (·.withSchedule q) (runOpcodes n s) := by
  induction n generalizing s with
  | zero => rfl
  | succ n ih => exact runSteps_withSchedule_cons ih [] s

/-! ### The loop over the frames -/

theorem frameLoop_cons_of_next {ipf : Nat} {s t : State} (keys : List (KeyCode × Bool))
    (rest : List (List (KeyCode × Bool))) (h : runOpcodes ipf s = .next t) :
    frameLoop ipf (keys :: rest) s = frameLoop ipf rest ((frameActions keys).foldl hostAct t) := by
  rw [frameLoop, h]

/-- With IPF = 0 no Step runs, and the schedule is one batch of all the frames' actions. -/
theorem hostTurn_referenceSchedule_zero (frames : List (List (KeyCode × Bool))) (carry : List HostAction) (s : State) :
    .next (hostTurn (s.withSchedule (referenceSchedule 0 carry frames))) =
      frameLoop 0 frames (carry.foldl hostAct (s.withSchedule [])) := by
  induction frames generalizing carry with
  | nil => rfl
  | cons keys rest ih =>
    rw [referenceSchedule, ih, List.foldl_append]
    rfl

/-- With IPF = n + 1 the first frame's batches hold the carried actions before its first Step, and its own actions are
carried into the next frame. -/
theorem runSteps_referenceSchedule_succ (n : Nat) (frames : List (List (KeyCode × Bool))) (carry : List HostAction)
    (s : State) :
    mapNext hostTurn (runSteps ((n + 1) * frames.length) (s.withSchedule (referenceSchedule (n + 1) carry frames))) =
      frameLoop (n + 1) frames (carry.foldl hostAct (s.withSchedule [])) := by
  induction frames generalizing carry s with
  | nil => rfl
  | cons keys rest ih =>
    obtain ⟨t, ht⟩ := runOpcodes_completes (n + 1) (carry.foldl hostAct s)
    have hframe : runSteps (n + 1) (s.withSchedule (referenceSchedule (n + 1) carry (keys :: rest))) =
        .next (t.withSchedule (referenceSchedule (n + 1) (frameActions keys) rest)) := by
      rw [referenceSchedule, List.cons_append, runSteps_withSchedule_cons (runSteps_withSchedule_replicate _ n), ht,
        mapNext]
    have hloop : runOpcodes (n + 1) (carry.foldl hostAct (s.withSchedule [])) = .next (t.withSchedule []) := by
      rw [foldl_hostAct_withSchedule, runOpcodes_withSchedule, ht, mapNext]
    rw [List.length_cons, Nat.mul_succ, Nat.add_comm, runSteps_add _ _ hframe, ih, frameLoop_cons_of_next _ _ hloop]

/-- Settles O11, by the cases of IPF and then by induction on the frames, over any actions carried into the first. -/
theorem referenceScheduleIsTheFrameLoop : Obligations.ReferenceScheduleIsTheFrameLoop := by
  intro ipf frames s hsched
  have hs : s.withSchedule [] = s := by rw [← hsched]; rfl
  rw [← congrArg (frameLoop ipf frames) hs]
  cases ipf with
  | zero =>
    rw [Nat.zero_mul]
    exact hostTurn_referenceSchedule_zero frames [] s
  | succ n => exact runSteps_referenceSchedule_succ n frames [] s

end Sys2Proof.Machine
end

section
/-! PROOFS. The return on an empty stack (the spec's decision D4). -/

namespace Sys2Proof.Machine

/-- Settles O20: with the cursor at 0 there is no saved address to pop, and the fetch has advanced PC already. -/
theorem returnOnEmptyStackIsNoOp : Obligations.ReturnOnEmptyStackIsNoOp :=
  fun s h => execRet_of_empty s (Nat.not_lt_of_le h.le)

end Sys2Proof.Machine
end
